-- ==== Sys2Proof/Word.lean ====
section
/-! DEFINITION. The widths of the machine (R11): memory cells, CPU addresses, colours, characters. -/

namespace Sys2Proof

/-- A memory cell, an immediate, the accumulator, a palette index: 8 bits, unsigned (R11). -/
abbrev Byte := BitVec 8

/-- A CPU address or the program counter: 16 bits, unsigned (R11, R22). -/
abbrev Addr := BitVec 16

/-- A palette colour: 24 bits (R11). -/
abbrev Colour := BitVec 24

/-- A character of `draw_text`: a Unicode code point (D27). -/
abbrev CodePoint := Fin 0x110000

end Sys2Proof
end

