-- ==== Sys2Proof/Config.lean ====
section
/-! DEFINITION. What is fixed at construction (R9, R10, R35, R36): the machine's configuration, and the free values
that stand for the palette and the glyphs the source does not give. -/

namespace Sys2Proof

/-- The opcode parameter `OPC` (R10, R86): the byte value of each of the nine opcodes. -/
structure Opc where
  nop    : Byte
  ldaImm : Byte
  sta    : Byte
  ldaAbs : Byte
  add    : Byte
  sub    : Byte
  jmp    : Byte
  jz     : Byte
  halt   : Byte
  deriving DecidableEq, Repr

/-- A glyph: 7 rows of 5 bits (R10, R166); `g[row][col] = true` is a painted pixel (D13). -/
abbrev Glyph := Vector (Vector Bool 5) 7

/-- The configuration of one machine. Given once at construction and never written afterwards (R9, R35); `palette`
and `font` are constants of the process (R36). R9 and R10 say that the model takes each of these as an argument; here
they are one field of `State` (log 1), so a statement about every state holds for every configuration. -/
structure Config where
  /-- `MEM_SIZE`: the number of memory cells. -/
  memSize   : Nat
  /-- `BOOT_ADDR`: the load and boot address of the initial program. -/
  bootAddr  : Nat
  /-- `VRAM_START`: the base address of the video region. -/
  vramStart : Nat
  /-- `WIDTH`: the pixel width of the video region. -/
  width     : Nat
  /-- `HEIGHT`: the pixel height of the video region. -/
  height    : Nat
  /-- `OPC`: the opcode bytes. -/
  opc       : Opc
  /-- `PALETTE`: a total map from palette index to colour, as its 256 entries in order (R190). -/
  palette   : List Colour
  /-- `FONT`: a partial map from characters to glyphs; the first entry of a character counts (R167). -/
  font      : List (CodePoint × Glyph)
  deriving DecidableEq, Repr

/-- The number of pixels, `WIDTH*HEIGHT`. -/
def Config.pixels (c : Config) : Nat := c.width * c.height

/-- FREE VALUE: the chrome colours, palette entries 0 to 6, which the source does not give (N5, U6; log 4). -/
opaque Config.freeChrome : Byte → Colour

/-- FREE VALUE: the grey level of palette entries 7 to 255, which the source does not give (N5, U7; log 4). -/
opaque Config.freeGrey : Byte → Byte

/-- FREE VALUE: the glyphs of the font, which the source does not give (N6, U8; log 5). -/
opaque Config.freeGlyphs : List (CodePoint × Glyph)

end Sys2Proof
end

