-- ==== Sys2Proof/Syntax.lean ====
section
/-! DEFINITION. The instruction set as syntax: nine instructions (R85) and their mnemonics. -/

namespace Sys2Proof

/-- An instruction with its operand, one constructor per row of the opcode table (R85). -/
inductive Instr where
  /-- `NOP` (R140) -/
  | nop
  /-- `LDA #imm` (R120) -/
  | ldaImm (imm : Byte)
  /-- `STA addr` (R122) -/
  | sta (addr : Addr)
  /-- `LDA addr` (R121) -/
  | ldaAbs (addr : Addr)
  /-- `ADD #imm` (R130) -/
  | add (imm : Byte)
  /-- `SUB #imm` (R131) -/
  | sub (imm : Byte)
  /-- `JMP addr` (R142) -/
  | jmp (addr : Addr)
  /-- `JZ addr` (R143) -/
  | jz (addr : Addr)
  /-- `HALT` (R146) -/
  | halt
  deriving DecidableEq, Repr

/-- The nine assigned variants of R85, without their operands. -/
inductive Mnemonic where
  | nop | ldaImm | sta | ldaAbs | add | sub | jmp | jz | halt
  deriving DecidableEq, Repr

/-- The nine mnemonics in the source's order (R85). -/
def Mnemonic.all : List Mnemonic :=
  [.nop, .ldaImm, .sta, .ldaAbs, .add, .sub, .jmp, .jz, .halt]

/-- The instruction variant a byte decodes to (R87): an assigned mnemonic, or `Unknown(b)`, which is a value of its own
and no error path. -/
inductive Variant where
  | known (m : Mnemonic)
  | unknown (b : Byte)
  deriving DecidableEq, Repr

/-- The formats of R81 with the instruction each builds from its operand: N (no operand), I (an 8-bit immediate),
A (a 16-bit absolute address, of data or of a jump target, R84). -/
inductive OperandForm where
  | implied (i : Instr)
  | immediate (mk : Byte → Instr)
  | absolute (mk : Addr → Instr)

/-- What the decoder answers on a list of bytes: an instruction and the bytes after it, or a rejection by name. -/
inductive Decoded where
  /-- The bytes begin with this instruction; `rest` follows it. -/
  | instr (i : Instr) (rest : List Byte)
  /-- The first byte is assigned to no instruction (R88). -/
  | illegalOpcode (b : Byte)
  /-- The list ends before the instruction does. -/
  | truncated
  deriving DecidableEq, Repr

end Sys2Proof
end

