-- ==== Sys2Proof/WellFormed.lean ====
section
/-! DEFINITION. Well-formedness of the parameters. An `Instr` needs no check: every 8-bit immediate and every 16-bit
address is a legal operand (R89), and the fields have exactly those widths. -/

namespace Sys2Proof

/-- The nine opcode bytes in the source's order. -/
def Opc.bytes (o : Opc) : List Byte :=
  [o.nop, o.ldaImm, o.sta, o.ldaAbs, o.add, o.sub, o.jmp, o.jz, o.halt]

/-- `OPC` is injective: no two instructions share a byte (R86). -/
def Opc.wf (o : Opc) : Bool := decide o.bytes.Nodup

/-- The three channels of a colour are equal; `R = c[23:16]`, `G = c[15:8]`, `B = c[7:0]` (R190, R191, log 4). -/
def isGrey (c : Colour) : Bool :=
  c.extractLsb' 16 8 == c.extractLsb' 8 8 && c.extractLsb' 8 8 == c.extractLsb' 0 8

/-- `PALETTE` has an entry for each of the 256 indices; entries 7 to 255 are a grey ramp (R190, R191), entries 0 to 6
are unconstrained. -/
def paletteWf (p : List Colour) : Bool :=
  p.length == 256 && (p.drop 7).all isGrey

/-- The space character. -/
def space : CodePoint := 0x20

/-- A glyph that paints nothing. -/
def blankGlyph : Glyph := Vector.replicate 7 (Vector.replicate 5 false)

/-- `FONT` maps the space, to a glyph of zeros (R167, D13). -/
def fontWf (f : List (CodePoint × Glyph)) : Bool :=
  decide (f.lookup space = some blankGlyph)

/-- The constraints of R9, which construction checks (R240): `MEM_SIZE >= 1`, `WIDTH >= 1`, `HEIGHT >= 1` and
`VRAM_START + WIDTH*HEIGHT <= MEM_SIZE`. The lower bounds 0 hold by type. -/
def Config.fits (c : Config) : Bool :=
  decide (1 ≤ c.memSize) && decide (1 ≤ c.width) && decide (1 ≤ c.height) &&
    decide (c.vramStart + c.pixels ≤ c.memSize)

/-- A legal configuration: the constraints of R9 and of the parameters of R10. -/
def Config.wf (c : Config) : Bool :=
  c.fits && c.opc.wf && paletteWf c.palette && fontWf c.font

end Sys2Proof
end

