-- ==== Sys2Proof/Decode.lean ====
section
/-! DEFINITION. Decoding and encoding (30_encoding.md), for every opcode parameter `OPC`. The reference assignment is
the spec's own (R85, D1): it is what the opcode table and the reset configuration use. -/

namespace Sys2Proof

/-- The reference assignment of R85 (D1; log 2). -/
def Opc.reference : Opc :=
  { nop := 0x00, ldaImm := 0x01, sta := 0x02, ldaAbs := 0x03, add := 0x04, sub := 0x05, jmp := 0x06, jz := 0x07,
    halt := 0x08 }

/-- `OPC.m`, the byte of a mnemonic (R86). -/
def Opc.byteOf (o : Opc) : Mnemonic → Byte
  | .nop => o.nop
  | .ldaImm => o.ldaImm
  | .sta => o.sta
  | .ldaAbs => o.ldaAbs
  | .add => o.add
  | .sub => o.sub
  | .jmp => o.jmp
  | .jz => o.jz
  | .halt => o.halt

/-- `decode(b)` of R87: the mnemonic whose byte is `b`, if one exists, and `Unknown(b)` otherwise. -/
def decodeOpcode (o : Opc) (b : Byte) : Variant :=
  match Mnemonic.all.find? (fun m => o.byteOf m == b) with
  | some m => .known m
  | none => .unknown b

/-- The format of each instruction (R85) and the instruction it builds from its operand. -/
def Mnemonic.form : Mnemonic → OperandForm
  | .nop => .implied .nop
  | .ldaImm => .immediate .ldaImm
  | .sta => .absolute .sta
  | .ldaAbs => .absolute .ldaAbs
  | .add => .immediate .add
  | .sub => .immediate .sub
  | .jmp => .absolute .jmp
  | .jz => .absolute .jz
  | .halt => .implied .halt

/-- The length of a format in bytes (R80, R90). -/
def OperandForm.length : OperandForm → Nat
  | .implied _ => 1
  | .immediate _ => 2
  | .absolute _ => 3

/-- The mnemonic of an instruction. -/
def Instr.mnemonic : Instr → Mnemonic
  | .nop => .nop
  | .ldaImm _ => .ldaImm
  | .sta _ => .sta
  | .ldaAbs _ => .ldaAbs
  | .add _ => .add
  | .sub _ => .sub
  | .jmp _ => .jmp
  | .jz _ => .jz
  | .halt => .halt

/-- The length of an instruction in bytes, a function of its opcode alone (R90). -/
def Instr.length (i : Instr) : Nat := i.mnemonic.form.length

/-- Address assembly, high byte first: `addr = hi*256 + lo` (R83). -/
def joinAddr (hi lo : Byte) : Addr := BitVec.ofNat 16 (hi.toNat * 256 + lo.toNat)

/-- The high byte `addr[15:8]`, `addr div 256` (R81, R93). -/
def highByte (a : Addr) : Byte := BitVec.ofNat 8 (a.toNat / 256)

/-- The low byte `addr[7:0]`, `addr mod 256` (R81, R93). -/
def lowByte (a : Addr) : Byte := BitVec.ofNat 8 (a.toNat % 256)

/-- The operand bytes that follow an opcode of the given format (R82, R83, R103). -/
def decodeOperands : OperandForm → List Byte → Decoded
  | .implied i, rest => .instr i rest
  | .immediate mk, b :: rest => .instr (mk b) rest
  | .immediate _, [] => .truncated
  | .absolute mk, hi :: lo :: rest => .instr (mk (joinAddr hi lo)) rest
  | .absolute _, [_] => .truncated
  | .absolute _, [] => .truncated

/-- The instruction at the head of a list of bytes, in fetch order (R81, R87). -/
def decode (o : Opc) : List Byte → Decoded
  | [] => .truncated
  | op :: rest =>
    match decodeOpcode o op with
    | .known m => decodeOperands m.form rest
    | .unknown b => .illegalOpcode b

/-- The bytes of an instruction, in fetch order (R81, R93). -/
def encode (o : Opc) : Instr → List Byte
  | .nop => [o.nop]
  | .ldaImm imm => [o.ldaImm, imm]
  | .sta addr => [o.sta, highByte addr, lowByte addr]
  | .ldaAbs addr => [o.ldaAbs, highByte addr, lowByte addr]
  | .add imm => [o.add, imm]
  | .sub imm => [o.sub, imm]
  | .jmp addr => [o.jmp, highByte addr, lowByte addr]
  | .jz addr => [o.jz, highByte addr, lowByte addr]
  | .halt => [o.halt]

/-- Bytes written as one bit string in fetch order, first byte most significant (R81), as a number. -/
def bitString : List Byte → Nat
  | [] => 0
  | b :: bs => b.toNat * 256 ^ bs.length + bitString bs

/-- The bytes of a bit string of `n` bytes, in fetch order (R81). -/
def bitStringBytes : Nat → Nat → List Byte
  | 0, _ => []
  | n + 1, w => BitVec.ofNat 8 (w / 256 ^ n) :: bitStringBytes n w

/-- An instruction as R81's bit string: `opcode`, `opcode ++ imm8` or `opcode ++ addr[15:8] ++ addr[7:0]`, of
`8 * i.length` bits. -/
def Instr.bitString (o : Opc) (i : Instr) : Nat := Sys2Proof.bitString (encode o i)

/-- The instruction that a bit string of `n` bytes begins with (R81). -/
def decodeBitString (o : Opc) (n w : Nat) : Decoded := decode o (bitStringBytes n w)

/-- The image of a program: each item immediately after the previous one (R92, R93). -/
def assemble (o : Opc) (program : List Instr) : List Byte := program.flatMap (encode o)

/-- One hexadecimal digit of a written number. -/
def hexDigit (n : BitVec 4) : Char :=
  Char.ofNat (if n.toNat < 10 then 0x30 + n.toNat else 0x37 + n.toNat)

/-- An immediate as R92 writes it: `#0x` and two digits. -/
def writtenImm (b : Byte) : List Char :=
  ['#', '0', 'x', hexDigit (b.extractLsb' 4 4), hexDigit (b.extractLsb' 0 4)]

/-- An address as R92 writes it: `0x` and four digits. -/
def writtenAddr (a : Addr) : List Char :=
  ['0', 'x', hexDigit (a.extractLsb' 12 4), hexDigit (a.extractLsb' 8 4), hexDigit (a.extractLsb' 4 4),
    hexDigit (a.extractLsb' 0 4)]

/-- An instruction in the assembly notation of R92 (D24; log 20). -/
def written : Instr → List Char
  | .nop => ['N', 'O', 'P']
  | .ldaImm imm => ['L', 'D', 'A', ' '] ++ writtenImm imm
  | .sta addr => ['S', 'T', 'A', ' '] ++ writtenAddr addr
  | .ldaAbs addr => ['L', 'D', 'A', ' '] ++ writtenAddr addr
  | .add imm => ['A', 'D', 'D', ' '] ++ writtenImm imm
  | .sub imm => ['S', 'U', 'B', ' '] ++ writtenImm imm
  | .jmp addr => ['J', 'M', 'P', ' '] ++ writtenAddr addr
  | .jz addr => ['J', 'Z', ' '] ++ writtenAddr addr
  | .halt => ['H', 'A', 'L', 'T']

/-- A program as R92 writes it: a bracketed list. -/
def writtenProgram (program : List Instr) : List Char :=
  ['['] ++ [',', ' '].intercalate (program.map written) ++ [']']

/-- The bytes of a table word, as many as the longest instruction has; the bits above `nbits` are zero. The host's
interface numbers a table word's bits from the first byte up, so its first byte stands in bits 7..0: the reverse of
R81's bit string, which is `bitString` (log 28). -/
def tableBytes (nbits w : Nat) : List Byte :=
  (List.range 3).map fun k => BitVec.ofNat 8 ((w % 2 ^ nbits) >>> (8 * k))

/-- The instruction that the decoder reads from a word of the opcode table, under the reference assignment. -/
def decodeTableWord (nbits w : Nat) : Option Instr :=
  match decode Opc.reference (tableBytes nbits w) with
  | .instr i _ => some i
  | .illegalOpcode _ => none
  | .truncated => none

end Sys2Proof
end

