-- ==== Sys2Proof/Machine/Reference.lean ====
section
/-! DEFINITION. The configuration that reset holds: the reference values of the spec's test vectors (95), with the
palette and the glyphs left free. Statements range over every configuration; only those about `State.reset` and
`decodeTableWord` use this one. -/

namespace Sys2Proof.Machine

/-- A colour of three equal channels (R191). -/
def greyColour (level : Byte) : Colour := level ++ level ++ level

/-- A palette entry of the reset configuration: free chrome colours in entries 0 to 6, a free grey from 7 on (R190,
D12; log 4). -/
def referenceColour (i : Nat) : Colour :=
  if i < 7 then Config.freeChrome (BitVec.ofNat 8 i) else greyColour (Config.freeGrey (BitVec.ofNat 8 i))

/-- The palette of the reset configuration. -/
def referencePalette : List Colour := (List.range 256).map referenceColour

/-- The font of the reset configuration: a blank space (D13) before glyphs that are left free (log 5). -/
def referenceFont : List (CodePoint × Glyph) := (space, blankGlyph) :: Config.freeGlyphs

/-- The configuration of `State.reset` (DESIGN CHOICE, logs 2 and 3): the values of the test vectors, `MEM_SIZE = 65536`,
`VRAM_START = 0x0200`, `WIDTH = 4`, `HEIGHT = 2`, the reference opcodes, and `BOOT_ADDR = 0`. -/
def referenceConfig : Config :=
  { memSize := 65536, bootAddr := 0, vramStart := 0x0200, width := 4, height := 2, opc := Opc.reference,
    palette := referencePalette, font := referenceFont }

/-- `PALETTE[v]` (R190). A legal palette has all 256 entries (`paletteWf`); of a shorter one, which no legal
configuration holds, an absent entry reads 0 (log 18). -/
def paletteAt (c : Config) (v : Byte) : Colour := c.palette.getD v.toNat 0

end Sys2Proof.Machine
end

