-- ==== Sys2Proof/Machine/State.lean ====
section
/-! DEFINITION. The state of the machine as plain data (10_state.md R20-R39), the faults and errors of R210, and the
machine right after construction. -/

namespace Sys2Proof.Machine

/-- A fault: an error that ends a `step` (R17, R210 codes 1 and 2). `step` and `exec` never answer `Outcome.fault`:
R108 says what a faulting step does to the machine, so they answer the next state, with this record in `FAULT`.
Host operations hand it to the host. -/
inductive Fault where
  /-- `AddressOutOfRange(addr)` (R52, R107): raised by a fetch, `LDA addr`, `STA addr`, `read_byte`, `write_byte` and
  `read_word16` at an address outside `[0, MEM_SIZE)`. Safe: the spec names it. -/
  | addressOutOfRange (addr : Int)
  /-- `IllegalOpcode(opcode, pc)` (R104): raised by a step whose opcode byte is unassigned; `pc` is the address of that
  byte. Safe: the spec names it. -/
  | illegalOpcode (opcode : Byte) (pc : Addr)
  deriving DecidableEq, Repr

/-- An error: any named failure of a host operation, faults included (R17, R210). -/
inductive HostError where
  /-- A fault of R210, code 1 or 2. -/
  | fault (f : Fault)
  /-- `BlockOverflow(start, n)` (R54, R210 code 3): raised by `write_block`, `load` and `present`. -/
  | blockOverflow (start : Int) (n : Nat)
  deriving DecidableEq, Repr

/-- Why the model gives no meaning. -/
inductive Refusal where
  /-- An instruction without a meaning yet: answered by `exec`'s arm of that name only. No arm answers it. Safe. -/
  | notModelled (mnemonic : String)
  /-- A configuration that breaks a constraint of R9: answered by `construct` only (R240: no machine is constructed).
  Safe: the spec refuses it. -/
  | invalidConfiguration
  deriving DecidableEq, Repr

/-- Memory as the cells that differ from `Memory.unlisted`, addresses strictly rising (`Memory.wf`). -/
abbrev Memory := List Host.Cell

/-- The whole state of the CORE (R38). -/
structure State where
  /-- The configuration and the process constants (R9, R10, R35, R36), never written. -/
  cfg      : Config
  /-- `PC`, the program counter (R22). -/
  pc       : Addr
  /-- `A`, the accumulator (R21). -/
  a        : Byte
  /-- `HALTED` (R23). -/
  halted   : Bool
  /-- `FAULT`, the fault latch; `none` is the spec's `None` (R25). -/
  fault    : Option Fault
  /-- Memory (R26). -/
  mem      : Memory
  /-- `BB`, the back buffer, row-major (R28). -/
  bb       : List Byte
  /-- `SNAP`, the previous-frame snapshot (R29). -/
  snap     : List Byte
  /-- `GRID`, the pixel grid (R31). -/
  grid     : List Colour
  /-- `CHANGED` (R32). -/
  changed  : Bool
  /-- `IMAGE_LEN` (R33). -/
  imageLen : Nat
  deriving DecidableEq, Repr

/-- The machine right after construction with the reference configuration (R38, R240; logs 3, 6, 7, 10): running, no
fault, memory with nothing listed. No program is in it: a program is loaded from outside (R243, R248; log 16). -/
def State.reset : State :=
  { cfg := referenceConfig
    pc := 0
    a := 0
    halted := false
    fault := none
    mem := []
    bb := List.replicate referenceConfig.pixels 0
    snap := List.replicate referenceConfig.pixels 0
    grid := List.replicate referenceConfig.pixels (paletteAt referenceConfig 0)
    changed := false
    imageLen := 0 }

end Sys2Proof.Machine
end

