-- ==== Sys2Proof/Machine/Ops.lean ====
section
/-! DEFINITION. The named operations over registers and memory: the memory controller (20_memory.md), the byte fetch
(R102), taking a fault (R108) and the way back from one, `reboot` (R241). -/

namespace Sys2Proof.Machine

/-! ## Registers: one update per field -/

def State.setPc (s : State) (v : Addr) : State := { s with pc := v }
def State.setA (s : State) (v : Byte) : State := { s with a := v }
def State.setHalted (s : State) (v : Bool) : State := { s with halted := v }
def State.setFault (s : State) (v : Option Fault) : State := { s with fault := v }
def State.setMem (s : State) (v : Memory) : State := { s with mem := v }
def State.setBb (s : State) (v : List Byte) : State := { s with bb := v }
def State.setSnap (s : State) (v : List Byte) : State := { s with snap := v }
def State.setGrid (s : State) (v : List Colour) : State := { s with grid := v }
def State.setChanged (s : State) (v : Bool) : State := { s with changed := v }
def State.setImageLen (s : State) (v : Nat) : State := { s with imageLen := v }

/-! ## Memory as data -/

/-- What an address that is not listed reads as (log 6). -/
def Memory.unlisted : Byte := 0

/-- The canonical form: addresses strictly rising, and no entry equal to what an unlisted address reads as. -/
def Memory.wf (m : Memory) : Bool :=
  decide (m.Pairwise fun c d => c.1 < d.1) && m.all fun c => c.2 != Memory.unlisted

/-- The cell `M[a]`. -/
def Memory.get : Memory → Nat → Byte
  | [], _ => Memory.unlisted
  | (x, v) :: m, a => if x = a then v else Memory.get m a

/-- The memory with `M[a] = b`, in canonical form. -/
def Memory.set : Memory → Nat → Byte → Memory
  | [], a, b => if b = Memory.unlisted then [] else [(a, b)]
  | (x, v) :: m, a, b =>
    if x < a then (x, v) :: Memory.set m a b
    else if x = a then (if b = Memory.unlisted then m else (a, b) :: m)
    else if b = Memory.unlisted then (x, v) :: m
    else (a, b) :: (x, v) :: m

/-- The memory with the bytes stored from address `a` on. -/
def Memory.setBlock : Memory → Nat → List Byte → Memory
  | m, _, [] => m
  | m, a, b :: bs => Memory.setBlock (Memory.set m a b) (a + 1) bs

/-- The memory of `n` cells whose cell `a` holds `init a` (`INIT_MEM`, R38). -/
def Memory.ofFn (n : Nat) (init : Nat → Byte) : Memory :=
  ((List.range n).map fun a => (a, init a)).filter fun c => c.2 != Memory.unlisted

/-! ## The memory controller -/

/-- Reduction of a host value to 8 bits: `v mod 256`, non-negative (R53, D10, D15). -/
def byteOfInt (v : Int) : Byte := BitVec.ofInt 8 v

/-- Reduction of a boot address to 16 bits: `X mod 65536`, non-negative (R241, D10). -/
def addrOfInt (x : Int) : Addr := BitVec.ofInt 16 x

/-- `0 <= addr < MEM_SIZE` (R51). -/
abbrev State.valid (s : State) (addr : Int) : Prop := 0 ≤ addr ∧ addr < s.cfg.memSize

/-- `read_byte(addr)`, the primitive `MemRead(addr, 1)` (R52). -/
def readByte (s : State) (addr : Int) : Except Fault Byte :=
  if s.valid addr then .ok (Memory.get s.mem addr.toNat) else .error (.addressOutOfRange addr)

/-- `MemWrite(addr, 1, value)` of an 8-bit value (R53). -/
def storeByte (s : State) (addr : Int) (b : Byte) : Except Fault State :=
  if s.valid addr then .ok (s.setMem (Memory.set s.mem addr.toNat b)) else .error (.addressOutOfRange addr)

/-- `write_byte(addr, value)`: masks the value to 8 bits and stores it (R53). -/
def writeByte (s : State) (addr value : Int) : Except Fault State := storeByte s addr (byteOfInt value)

/-- `write_block(start, bytes)`: every byte or none (R54). -/
def writeBlock (s : State) (start : Int) (bytes : List Byte) : Except HostError State :=
  if start < 0 ∨ start + bytes.length > s.cfg.memSize then .error (.blockOverflow start bytes.length)
  else .ok (s.setMem (Memory.setBlock s.mem start.toNat bytes))

/-- `read_word16(addr)`: two byte reads, high byte first; the first that fails is reported (R55, D11). -/
def readWord16 (s : State) (addr : Int) : Except Fault Addr :=
  match readByte s addr with
  | .error f => .error f
  | .ok hi =>
    match readByte s (addr + 1) with
    | .error f => .error f
    | .ok lo => .ok (joinAddr hi lo)

/-! ## Faults and the way back -/

/-- The codes of R25 and R210 (D9; log 17). -/
def faultCode : Option Fault → Nat
  | none => 0
  | some (.addressOutOfRange _) => 1
  | some (.illegalOpcode _ _) => 2

/-- The codes of R210. -/
def errorCode : HostError → Nat
  | .fault f => faultCode (some f)
  | .blockOverflow _ _ => 3

/-- Taking a fault (R108, D7; log 8): `FAULT <- the record; HALTED <- true`. `A`, Memory and every other register stay;
`PC` stays as the fetches left it (R107). -/
def takeFault (f : Fault) (s : State) : State := (s.setFault (some f)).setHalted true

/-- `reboot(boot_address)` (R241), the only way back from a fault or a halt (R219): it writes the CPU's registers and
the latch, whatever the state was, and nothing else. -/
def reboot (bootAddress : Int) (s : State) : State :=
  (((s.setPc (addrOfInt bootAddress)).setA 0).setHalted false).setFault none

/-! ## Fetching bytes -/

/-- The outcome of a part of a step that may raise: a value and the state after it, or the fault and the state at the
moment it is raised (R100: `raise` ends the step at once). -/
inductive Fetched (α : Type) where
  | value (v : α) (s : State)
  | raised (f : Fault) (s : State)
  deriving DecidableEq, Repr

/-- `fetch()` (R102): read the byte at `PC`, then advance `PC` by 1 modulo 65536. A read that fails does not advance
`PC` (D8). -/
def fetch (s : State) : Fetched Byte :=
  match readByte s s.pc.toNat with
  | .ok b => .value b (s.setPc (s.pc + 1))
  | .error f => .raised f s

end Sys2Proof.Machine
end

