-- ==== Sys2Proof/Machine/Operands.lean ====
section
/-! DEFINITION. Every operand form of the ISA (R84): implied, immediate, absolute data, absolute jump target. -/

namespace Sys2Proof.Machine

/-- Operand fetch (R103): no byte for an implied operand, one for an immediate, two for an absolute address, high byte
first. Each byte is a `fetch()`, so each advances `PC` and each may raise. -/
def fetchOperands (form : OperandForm) (s : State) : Fetched Instr :=
  match form with
  | .implied i => .value i s
  | .immediate mk =>
    match fetch s with
    | .raised f s1 => .raised f s1
    | .value imm s1 => .value (mk imm) s1
  | .absolute mk =>
    match fetch s with
    | .raised f s1 => .raised f s1
    | .value hi s1 =>
      match fetch s1 with
      | .raised f s2 => .raised f s2
      | .value lo s2 => .value (mk (joinAddr hi lo)) s2

/-- An absolute data operand read: `MemRead(addr, 1)` at a CPU address (R84, R121). -/
def loadAbsolute (s : State) (addr : Addr) : Except Fault Byte := readByte s addr.toNat

/-- An absolute data operand written: `MemWrite(addr, 1, v)` at a CPU address (R84, R122). -/
def storeAbsolute (s : State) (addr : Addr) (v : Byte) : Except Fault State := storeByte s addr.toNat v

end Sys2Proof.Machine
end

