-- ==== Sys2Proof/Machine/Flags.lean ====
section
/-! DEFINITION. The ISA has no status flag and no instruction writes one (R24). Its one condition is computed here. -/

namespace Sys2Proof.Machine

/-- The one condition the ISA tests, "the accumulator being zero or not", computed at the moment `JZ` executes
(R24, R143). -/
def accumulatorIsZero (s : State) : Bool := s.a == 0

end Sys2Proof.Machine
end

