-- ==== Sys2Proof/Machine/Arithmetic.lean ====
section
/-! DEFINITION. Arithmetic: `ADD #imm`, `SUB #imm` (42_arithmetic.md), modulo 256, with no flag (R132). -/

namespace Sys2Proof.Machine

/-- `ADD #imm` (R130): `A <- (A + imm) mod 256`. -/
def execAdd (imm : Byte) (s : State) : Host.Outcome State Fault Refusal := .next (s.setA (s.a + imm))

/-- `SUB #imm` (R131): `A <- (A - imm) mod 256`. -/
def execSub (imm : Byte) (s : State) : Host.Outcome State Fault Refusal := .next (s.setA (s.a - imm))

end Sys2Proof.Machine
end

