-- ==== Sys2Proof/Machine/Control.lean ====
section
/-! DEFINITION. Control: `NOP`, `JMP addr`, `JZ addr`, `HALT` (43_control.md). `PC` is already past the instruction when a
meaning runs. -/

namespace Sys2Proof.Machine

/-- `NOP` (R140): no effect; the fetch has advanced `PC`. -/
def execNop (s : State) : Host.Outcome State Fault Refusal := .next s

/-- `JMP addr` (R142): `PC <- addr`, whether or not the target lies in Memory (R141). -/
def execJmp (addr : Addr) (s : State) : Host.Outcome State Fault Refusal := .next (s.setPc addr)

/-- `JZ addr` (R143): `PC <- addr` if `A = 0`; otherwise `PC` stays past the instruction. -/
def execJz (addr : Addr) (s : State) : Host.Outcome State Fault Refusal :=
  .next (if accumulatorIsZero s then s.setPc addr else s)

/-- `HALT` (R146): `HALTED <- true`; `FAULT` is not written. -/
def execHalt (s : State) : Host.Outcome State Fault Refusal := .next (s.setHalted true)

end Sys2Proof.Machine
end

