-- ==== Sys2Proof/Machine/DataTransfer.lean ====
section
/-! DEFINITION. Data transfer: `LDA #imm`, `LDA addr`, `STA addr` (41_data_transfer.md). Each meaning is the execute part
of the step: `PC` is already past the instruction. -/

namespace Sys2Proof.Machine

/-- `LDA #imm` (R120): `A <- imm`. -/
def execLdaImm (imm : Byte) (s : State) : Host.Outcome State Fault Refusal := .next (s.setA imm)

/-- `LDA addr` (R121): `A <- MemRead(addr, 1)`; an address outside Memory raises `AddressOutOfRange(addr)` (R108). -/
def execLdaAbs (addr : Addr) (s : State) : Host.Outcome State Fault Refusal :=
  match loadAbsolute s addr with
  | .ok b => .next (s.setA b)
  | .error f => .next (takeFault f s)

/-- `STA addr` (R122): `MemWrite(addr, 1, A)`; an address outside Memory raises `AddressOutOfRange(addr)` (R108). -/
def execSta (addr : Addr) (s : State) : Host.Outcome State Fault Refusal :=
  match storeAbsolute s addr s.a with
  | .ok t => .next t
  | .error f => .next (takeFault f s)

end Sys2Proof.Machine
end

