-- ==== Sys2Proof/Machine/Dispatch.lean ====
section
/-! DEFINITION. The execute dispatch (R105): one arm per instruction. -/

namespace Sys2Proof.Machine

def exec (i : Instr) (s : State) : Host.Outcome State Fault Refusal :=
  match i with
  | .nop => Sys2Proof.Machine.execNop s
  | .ldaImm imm => Sys2Proof.Machine.execLdaImm imm s
  | .sta addr => Sys2Proof.Machine.execSta addr s
  | .ldaAbs addr => Sys2Proof.Machine.execLdaAbs addr s
  | .add imm => Sys2Proof.Machine.execAdd imm s
  | .sub imm => Sys2Proof.Machine.execSub imm s
  | .jmp addr => Sys2Proof.Machine.execJmp addr s
  | .jz addr => Sys2Proof.Machine.execJz addr s
  | .halt => Sys2Proof.Machine.execHalt s

end Sys2Proof.Machine
end

