-- ==== Sys2Proof/Machine/Fetch.lean ====
section
/-! DEFINITION. The fetch and decode part of a step (R100, R102-R104), and how the host's check places an instruction. -/

namespace Sys2Proof.Machine

/-- Fetch the opcode byte, decode it and fetch its operands (R100). An unassigned byte raises `IllegalOpcode` with the
address it was fetched from, and no operand is fetched for it (R104). -/
def fetchInstr (s : State) : Fetched Instr :=
  match fetch s with
  | .raised f s1 => .raised f s1
  | .value op s1 =>
    match decodeOpcode s.cfg.opc op with
    | .unknown b => .raised (.illegalOpcode b s.pc) s1
    | .known m => fetchOperands m.form s1

/-- The three bytes from `PC` on, the `PC` wrapping modulo 65536 (R81, R91): the longest window an instruction has. -/
def bytesAtPc (s : State) : List Byte :=
  [Memory.get s.mem s.pc.toNat, Memory.get s.mem (s.pc + 1).toNat, Memory.get s.mem (s.pc + 2).toNat]

/-- The bytes stored from `PC` on, at the addresses a fetch reads them from (wrapping modulo 65536); a byte whose
address is outside Memory has no cell to go to. -/
def placeBytes : List Byte → Addr → State → State
  | [], _, s => s
  | b :: bs, p, s =>
    placeBytes bs (p + 1) (if p.toNat < s.cfg.memSize then s.setMem (Memory.set s.mem p.toNat b) else s)

/-- The state whose next step fetches the given table word: its bytes at `PC`, and `HALTED` false, without which no
step fetches (R101). -/
def placeWord (s : State) (nbits w : Nat) : State :=
  (placeBytes (tableBytes nbits w) s.pc s).setHalted false

end Sys2Proof.Machine
end

