-- ==== Sys2Proof/Machine/Step.lean ====
section
/-! DEFINITION. The CPU's `step` (40_cpu_cycle.md R100, R101, R108). -/

namespace Sys2Proof.Machine

/-- `step()` (R100): nothing when halted (R101); otherwise fetch, decode and execute one instruction. A fault raised on
the way is taken as R108 says, so the answer is always a next state. -/
def step (s : State) : Host.Outcome State Fault Refusal :=
  if s.halted then .next s
  else
    match fetchInstr s with
    | .raised f s1 => .next (takeFault f s1)
    | .value i s1 => exec i s1

/-- The state with a table word stored where `step` fetches its next instruction. It stands for the host's `load`, from
which a program comes (R243, log 16). -/
def State.withFetchWord (s : State) (nbits w : Nat) : State := placeWord s nbits w

end Sys2Proof.Machine
end

