-- ==== Sys2Proof/Machine/Loader.lean ====
section
/-! DEFINITION. Construction and the loader/reboot protocol (70_reset_and_hazards.md). -/

namespace Sys2Proof.Machine

/-- Construction (R240): the values of R38's construction column, with `INIT_MEM` as an argument (D5). A configuration
that breaks a constraint of R9 is refused (D3). -/
def construct (cfg : Config) (initMem : Nat → Byte) : Except Refusal State :=
  if cfg.fits then
    .ok
      { cfg := cfg
        pc := 0
        a := 0
        halted := false
        fault := none
        mem := Memory.ofFn cfg.memSize initMem
        bb := List.replicate cfg.pixels 0
        snap := List.replicate cfg.pixels 0
        grid := List.replicate cfg.pixels (paletteAt cfg 0)
        changed := false
        imageLen := 0 }
  else .error .invalidConfiguration

/-- `load(bytes, base)` (R243): the bulk write, then the image length, then `reboot(base)`. A copy that fails is
followed by nothing. -/
def load (bytes : List Byte) (base : Int) (s : State) : Except HostError State :=
  match writeBlock s base bytes with
  | .error e => .error e
  | .ok t => .ok (reboot base (t.setImageLen bytes.length))

/-- The initial boot (R244): the image at `BOOT_ADDR`. -/
def bootLoad (image : List Byte) (s : State) : Except HostError State := load image s.cfg.bootAddr s

end Sys2Proof.Machine
end

