-- ==== Sys2Proof/Machine/Sampler.lean ====
section
/-! DEFINITION. The Display Sampler (45_display_sampler.md): the full-frame diff of the video region. -/

namespace Sys2Proof.Machine

/-- One cell of `render_frame` (R192): read `M[VRAM_START + i]`; if it differs from `SNAP[i]`, write `SNAP[i]` and
`GRID[i]`. Answers the state and whether the cell changed. -/
def sampleCell (i : Nat) (s : State) : Except Fault (State × Bool) :=
  match readByte s (s.cfg.vramStart + i) with
  | .error f => .error f
  | .ok v =>
    if s.snap[i]? = some v then .ok (s, false)
    else .ok ((s.setSnap (s.snap.set i v)).setGrid (s.grid.set i (paletteAt s.cfg v)), true)

/-- The scan of R192 over a sequence of cells; `changed` is what the scan has found so far. -/
def sampleCells : List Nat → State → Bool → Except Fault (State × Bool)
  | [], s, changed => .ok (s, changed)
  | i :: is, s, changed =>
    match sampleCell i s with
    | .error f => .error f
    | .ok (t, differs) => sampleCells is t (changed || differs)

/-- `render_frame() -> changed` (R192, R193): scan the whole region, then hold the result in `CHANGED`. A read can
fail only in a configuration that R9 refuses (R196); nothing is written then (R210; log 18). -/
def renderFrame (s : State) : Except Fault (State × Bool) :=
  match sampleCells (List.range s.cfg.pixels) s false with
  | .error f => .error f
  | .ok (t, changed) => .ok (t.setChanged changed, changed)

end Sys2Proof.Machine
end

