-- ==== Sys2Proof/Machine/Video.lean ====
section
/-! DEFINITION. The Video Surface (44_video_surface.md): the back buffer, its drawing operations and `present`. The host
drives it; no drawing operation can fail (R170). -/

namespace Sys2Proof.Machine

/-- The cell at `(x, y)` lies on the surface (R160). -/
abbrev inSurface (c : Config) (x y : Int) : Prop := 0 ≤ x ∧ x < c.width ∧ 0 ≤ y ∧ y < c.height

/-- The place of `(x, y)` in the row-major buffers: `y*WIDTH + x` (R28). -/
def cellIndex (c : Config) (x y : Int) : Nat := (y * c.width + x).toNat

/-- One cell set to an 8-bit index, or nothing outside the surface (R160, R163). -/
def paint (idx : Byte) (s : State) (x y : Int) : State :=
  if inSurface s.cfg x y then s.setBb (s.bb.set (cellIndex s.cfg x y) idx) else s

/-- `paint` over a sequence of cells, in order. -/
def paintAll (idx : Byte) : List (Int × Int) → State → State
  | [], s => s
  | p :: ps, s => paintAll idx ps (paint idx s p.1 p.2)

/-- The integers of `[lo, hi)`, rising. -/
def intRange (lo hi : Int) : List Int := (List.range (hi - lo).toNat).map fun (k : Nat) => lo + k

/-- `clear(index)` (R162): every cell of the back buffer. -/
def clear (index : Int) (s : State) : State := s.setBb (List.replicate s.cfg.pixels (byteOfInt index))

/-- `set_pixel(x, y, index)` (R163). -/
def setPixel (x y index : Int) (s : State) : State := paint (byteOfInt index) s x y

/-- The cells of `fill_rect` (R164): the rectangle clipped to the surface, row by row. -/
def fillCells (c : Config) (x y w h : Int) : List (Int × Int) :=
  (intRange (max y 0) (min (y + h) c.height)).flatMap fun yy =>
    (intRange (max x 0) (min (x + w) c.width)).map fun xx => (xx, yy)

/-- `fill_rect(x, y, w, h, index)` (R164). -/
def fillRect (x y w h index : Int) (s : State) : State :=
  paintAll (byteOfInt index) (fillCells s.cfg x y w h) s

/-- The cells of `draw_rect` (R165): the border of the unclipped rectangle (D14; log 14), nothing when `w <= 0` or
`h <= 0`. -/
def borderCells (x y w h : Int) : List (Int × Int) :=
  if w ≤ 0 ∨ h ≤ 0 then []
  else
    ((intRange 0 w).flatMap fun i => [(x + i, y), (x + i, y + h - 1)]) ++
      (intRange 0 h).flatMap fun j => [(x, y + j), (x + w - 1, y + j)]

/-- `draw_rect(x, y, w, h, index)` (R165): each border cell is clipped on its own. -/
def drawRect (x y w h index : Int) (s : State) : State :=
  paintAll (byteOfInt index) (borderCells x y w h) s

/-- `fold` (R167, D13): the ASCII letters `a`..`z` to `A`..`Z`, every other character to itself. -/
def foldCase (c : CodePoint) : CodePoint :=
  if 0x61 ≤ c.val ∧ c.val ≤ 0x7A then c - 0x20 else c

/-- `glyph(c)` (R167): `FONT[fold(c)]`, or the space's glyph where `FONT` has no entry. A font with no space either
(no legal configuration has one, `fontWf`) gives a blank glyph (log 18). -/
def glyph (cfg : Config) (c : CodePoint) : Glyph :=
  match cfg.font.lookup (foldCase c) with
  | some g => g
  | none => (cfg.font.lookup space).getD blankGlyph

/-- The cells that one glyph paints with its top-left corner at `(x, y)`: its 1 bits, row by row (R166). -/
def glyphCells (g : Glyph) (x y : Int) : List (Int × Int) :=
  (List.finRange 7).flatMap fun row =>
    ((List.finRange 5).filter fun col => g[row][col]).map fun col => (x + (col.val : Int), y + (row.val : Int))

/-- The cells of a text: the cursor advances 6 pixels per character and never wraps (R166). -/
def textCells (cfg : Config) (x y : Int) : List CodePoint → List (Int × Int)
  | [] => []
  | c :: cs => glyphCells (glyph cfg c) x y ++ textCells cfg (x + 6) y cs

/-- `draw_text(x, y, text, index)` (R166). -/
def drawText (x y : Int) (text : List CodePoint) (index : Int) (s : State) : State :=
  paintAll (byteOfInt index) (textCells s.cfg x y text) s

/-- `present()` (R168): the whole back buffer into the video region, by the bulk write of R54. -/
def present (s : State) : Except HostError State := writeBlock s s.cfg.vramStart s.bb

end Sys2Proof.Machine
end

