-- ==== Sys2Proof/Machine/HostInterface.lean ====
section
/-! DEFINITION. The host-visible operations of R16, each one atomic transaction (R8), the step's result (R109), the
observation port (R34), and the tick (R246). The host is not part of the machine: the sequence of its operations is an
input (D26; log 11). -/

namespace Sys2Proof.Machine

/-- The result of a step (R109). -/
inductive StepResult where
  | ok
  | fault (f : Fault)
  deriving DecidableEq, Repr

/-- What the observation port shows (R34). -/
structure Observation where
  pc       : Addr
  a        : Byte
  halted   : Bool
  fault    : Option Fault
  imageLen : Nat
  changed  : Bool
  grid     : List Colour
  deriving DecidableEq, Repr

/-- The host-visible operations, and no others (R16). Elements of a block, an image and a text have their width by
type (D22, D27); coordinates, indices and addresses are integers (R13, D10, D29). -/
inductive HostOp where
  | readByte (addr : Int)
  | writeByte (addr value : Int)
  | writeBlock (start : Int) (bytes : List Byte)
  | readWord16 (addr : Int)
  | step
  | reboot (bootAddress : Int)
  | clear (index : Int)
  | setPixel (x y index : Int)
  | fillRect (x y w h index : Int)
  | drawRect (x y w h index : Int)
  | drawText (x y : Int) (text : List CodePoint) (index : Int)
  | present
  | renderFrame
  | readGrid
  | load (bytes : List Byte) (base : Int)
  | observe
  deriving DecidableEq, Repr

/-- What an operation hands back to the host. -/
inductive HostResult where
  | done
  | byte (b : Byte)
  | word (w : Addr)
  | stepped (r : StepResult)
  | rendered (changed : Bool)
  | pixels (grid : List Colour) (changed : Bool)
  | observed (o : Observation)
  | failed (e : HostError)
  deriving DecidableEq, Repr

/-- Reading the observation port (R34): no side effect. -/
def observe (s : State) : Observation :=
  { pc := s.pc, a := s.a, halted := s.halted, fault := s.fault, imageLen := s.imageLen, changed := s.changed,
    grid := s.grid }

/-- The result that `step` returns in state `s` (R109): `Ok` when halted (R101), the record when the step raises
(R108). `FAULT` holds a copy of the result (R25), so the result is the latch that the step leaves when it starts with
an empty one; no step reads the latch (R110; log 12). -/
def stepResult (s : State) : StepResult :=
  if s.halted then .ok
  else
    match step (s.setFault none) with
    | .next t =>
      match t.fault with
      | none => .ok
      | some f => .fault f
    | .fault f => .fault f
    | .refused _ => .ok

/-- The host's answer to an operation that may fail with an error: the new state, or the old one and the error (R210:
a failing host operation changes no state). -/
def completed (s : State) : Except HostError State → State × HostResult
  | .ok t => (t, .done)
  | .error e => (s, .failed e)

/-- The answer to an operation that reads a value or fails with a fault. -/
def answered {α : Type} (s : State) (result : α → HostResult) : Except Fault α → State × HostResult
  | .ok v => (s, result v)
  | .error f => (s, .failed (.fault f))

/-- A write that may fail with a fault. -/
def stored (s : State) : Except Fault State → State × HostResult
  | .ok t => (t, .done)
  | .error f => (s, .failed (.fault f))

/-- A frame that may fail with a fault. -/
def framed (s : State) : Except Fault (State × Bool) → State × HostResult
  | .ok (t, changed) => (t, .rendered changed)
  | .error f => (s, .failed (.fault f))

/-- A step with its result. -/
def stepped (s : State) : Host.Outcome State Fault Refusal → Host.Outcome (State × HostResult) Fault Refusal
  | .next t => .next (t, .stepped (stepResult s))
  | .fault f => .fault f
  | .refused r => .refused r

/-- One transaction (R8, R16): the state after the operation and what the host gets back. -/
def transact (op : HostOp) (s : State) : Host.Outcome (State × HostResult) Fault Refusal :=
  match op with
  | .readByte addr => .next (answered s .byte (readByte s addr))
  | .writeByte addr value => .next (stored s (writeByte s addr value))
  | .writeBlock start bytes => .next (completed s (writeBlock s start bytes))
  | .readWord16 addr => .next (answered s .word (readWord16 s addr))
  | .step => stepped s (step s)
  | .reboot bootAddress => .next (reboot bootAddress s, .done)
  | .clear index => .next (clear index s, .done)
  | .setPixel x y index => .next (setPixel x y index s, .done)
  | .fillRect x y w h index => .next (fillRect x y w h index s, .done)
  | .drawRect x y w h index => .next (drawRect x y w h index s, .done)
  | .drawText x y text index => .next (drawText x y text index s, .done)
  | .present => .next (completed s (present s))
  | .renderFrame => .next (framed s (renderFrame s))
  | .readGrid => .next (s, .pixels s.grid s.changed)
  | .load bytes base => .next (completed s (load bytes base s))
  | .observe => .next (s, .observed (observe s))

/-- A sequence of transactions in the host's order (R67), with their results. -/
def runHost : List HostOp → State → Host.Outcome (State × List HostResult) Fault Refusal
  | [], s => .next (s, [])
  | op :: ops, s =>
    match transact op s with
    | .fault f => .fault f
    | .refused r => .refused r
    | .next (t, result) =>
      match runHost ops t with
      | .fault f => .fault f
      | .refused r => .refused r
      | .next (u, results) => .next (u, result :: results)

/-- One tick of the driver (R246): `STEPS_PER_TICK` steps, one `present`, one `render_frame`. -/
def tickOps (stepsPerTick : Nat) : List HostOp := List.replicate stepsPerTick .step ++ [.present, .renderFrame]

/-- A tick run from a state. -/
def tick (stepsPerTick : Nat) (s : State) : Host.Outcome (State × List HostResult) Fault Refusal :=
  runHost (tickOps stepsPerTick) s

end Sys2Proof.Machine
end

