-- ==== Sys2Proof/Safety.lean ====
section
/-! DEFINITION. The invariant of the machine (R39, R108) and how a run of the CPU ends (R249). -/

namespace Sys2Proof.Machine

/-- What holds from construction onwards: the configuration is legal (R9, R10), memory is in canonical form with cells
below `MEM_SIZE` only (R26), the buffers have one entry per pixel (R28, R29, R31), `GRID[i] = PALETTE[SNAP[i]]` (R39; at
construction by the spec's choice D17, log 10), and a fault is recorded only while the CPU is halted (R108, by the spec's
choice D7, log 8). The ranges of R39 hold by type. -/
abbrev State.Inv (s : State) : Prop :=
  s.cfg.wf = true ∧
  Memory.wf s.mem = true ∧
  (∀ c ∈ s.mem, c.1 < s.cfg.memSize) ∧
  s.bb.length = s.cfg.pixels ∧
  s.snap.length = s.cfg.pixels ∧
  s.grid = s.snap.map (paletteAt s.cfg) ∧
  (s.fault ≠ none → s.halted = true)

/-- A run of the CPU has ended (R249). -/
abbrev State.Ended (s : State) : Prop := s.halted = true

/-- It ended normally, by `HALT` (R249). -/
abbrev State.EndedNormally (s : State) : Prop := s.halted = true ∧ s.fault = none

/-- It ended abnormally, by a fault (R249). -/
abbrev State.EndedAbnormally (s : State) : Prop := s.halted = true ∧ s.fault ≠ none

/-- Address `k` bytes past `PC`, wrapping modulo 65536: where a fetch reads byte `k` of the instruction (R81). -/
def State.fetchAddress (s : State) (k : Nat) : Nat := (s.pc + BitVec.ofNat 16 k).toNat

/-- The next step runs `i`: the CPU is running, `OPC` is injective, and the bytes from `PC` on lie in Memory and are the
encoding of `i` (R81, R93). -/
abbrev State.IsAbout (s : State) (i : Instr) : Prop :=
  s.halted = false ∧ s.cfg.opc.wf = true ∧
    ∀ k (h : k < (encode s.cfg.opc i).length),
      s.fetchAddress k < s.cfg.memSize ∧ Memory.get s.mem (s.fetchAddress k) = (encode s.cfg.opc i)[k]

/-- The drawing operations: those of the Video Surface but `present` (R160-R167). -/
def HostOp.draws : HostOp → Bool
  | .clear _ => true
  | .setPixel _ _ _ => true
  | .fillRect _ _ _ _ _ => true
  | .drawRect _ _ _ _ _ => true
  | .drawText _ _ _ _ => true
  | .readByte _ => false
  | .writeByte _ _ => false
  | .writeBlock _ _ => false
  | .readWord16 _ => false
  | .step => false
  | .reboot _ => false
  | .present => false
  | .renderFrame => false
  | .readGrid => false
  | .load _ _ => false
  | .observe => false

/-- The operations of the two devices: drawing, `present` and `render_frame` (R223). -/
def HostOp.ofDevice (op : HostOp) : Bool := op.draws || op == .present || op == .renderFrame

/-- The operations that reboot the CPU: `reboot`, and `load`, which ends in one (R241, R243). -/
def HostOp.reboots : HostOp → Bool
  | .reboot _ => true
  | .load _ _ => true
  | .clear _ => false
  | .setPixel _ _ _ => false
  | .fillRect _ _ _ _ _ => false
  | .drawRect _ _ _ _ _ => false
  | .drawText _ _ _ _ => false
  | .readByte _ => false
  | .writeByte _ _ => false
  | .writeBlock _ _ => false
  | .readWord16 _ => false
  | .step => false
  | .present => false
  | .renderFrame => false
  | .readGrid => false
  | .observe => false

end Sys2Proof.Machine
end

