-- ==== Sys2Proof/Certificates/Slice0/Obligations.lean ====
section
/-! DEFINITION. The statements for the provers, from the spec's numbered rules. Each docstring names its rule. Unless one
says otherwise a statement holds for every configuration a state can hold, every injective `OPC` among them. -/

open Sys2Proof
open Sys2Proof.Machine

/-! ## Encoding -/

/-- Words written out from the encodings of R81 with the reference bytes of R85 (D1) decode to their instructions. -/
def Obligations.ReferenceWordsDecode : Prop :=
  decode Opc.reference [0x00] = .instr .nop [] ∧
  decode Opc.reference [0x01, 0x2A] = .instr (.ldaImm 0x2A) [] ∧
  decode Opc.reference [0x02, 0x01, 0x00] = .instr (.sta 0x0100) [] ∧
  decode Opc.reference [0x03, 0x00, 0x10] = .instr (.ldaAbs 0x0010) [] ∧
  decode Opc.reference [0x04, 0xFF] = .instr (.add 0xFF) [] ∧
  decode Opc.reference [0x05, 0x01] = .instr (.sub 0x01) [] ∧
  decode Opc.reference [0x06, 0x12, 0x34] = .instr (.jmp 0x1234) [] ∧
  decode Opc.reference [0x07, 0x00, 0x0A] = .instr (.jz 0x000A) [] ∧
  decode Opc.reference [0x08] = .instr .halt [] ∧
  decode Opc.reference [0xFF] = .illegalOpcode 0xFF

/-- Decoding the encoding of any instruction gives it back, with the bytes after it (R81, R86, R93). -/
def Obligations.DecodeInvertsEncode : Prop :=
  ∀ (o : Opc), o.wf = true → ∀ (i : Instr) (rest : List Byte), decode o (encode o i ++ rest) = .instr i rest

/-- Bytes that decode to an instruction are its encoding: no instruction has two encodings (R86, R93). -/
def Obligations.EncodeInvertsDecode : Prop :=
  ∀ (o : Opc) (bytes : List Byte) (i : Instr) (rest : List Byte),
    decode o bytes = .instr i rest → bytes = encode o i ++ rest

/-- R87: a byte decodes to the mnemonic whose `OPC` byte it is, and to `Unknown` of itself when there is none. -/
def Obligations.OpcodeByteDecodesToItsMnemonic : Prop :=
  ∀ (o : Opc), o.wf = true → ∀ (b : Byte),
    (∀ m, decodeOpcode o b = .known m ↔ o.byteOf m = b) ∧
    (∀ c, decodeOpcode o b = .unknown c ↔ c = b ∧ ∀ m, o.byteOf m ≠ b)

/-- R83: the address operand is `hi*256 + lo` of the two bytes after the opcode, absolute; the immediate is the byte
after the opcode, as it is (R82). -/
def Obligations.OperandBytesAreAssembledHighByteFirst : Prop :=
  ∀ (o : Opc), o.wf = true → ∀ (m : Mnemonic) (b1 b2 : Byte) (rest : List Byte),
    (∀ mk, m.form = .absolute mk →
      ∃ addr : Addr, addr.toNat = b1.toNat * 256 + b2.toNat ∧
        decode o (o.byteOf m :: b1 :: b2 :: rest) = .instr (mk addr) rest) ∧
    (∀ mk, m.form = .immediate mk → decode o (o.byteOf m :: b1 :: rest) = .instr (mk b1) rest) ∧
    (∀ i, m.form = .implied i → decode o (o.byteOf m :: rest) = .instr i rest)

/-! ## The step -/

/-- When the bytes at `PC` decode to an instruction and lie in Memory, the step is `exec` of it at the state whose `PC`
has moved past them (R100, R102, R103, R105). -/
def Obligations.StepRunsTheDecodedInstruction : Prop :=
  ∀ (s : State) (i : Instr) (rest : List Byte),
    s.halted = false →
    (∀ k, k < i.length → s.fetchAddress k < s.cfg.memSize) →
    decode s.cfg.opc (bytesAtPc s) = .instr i rest →
    step s = exec i (s.setPc (s.pc + BitVec.ofNat 16 i.length))

/-- R101: a halted step changes no state and returns `Ok`, whatever halted the CPU. -/
def Obligations.HaltedStepIsANoOp : Prop :=
  ∀ (s : State), s.halted = true → step s = .next s ∧ stepResult s = .ok

/-- R111: the CPU can be stepped any number of times from any state: no step stops the machine. -/
def Obligations.AnyNumberOfStepsAnswersNext : Prop :=
  ∀ (n : Nat) (s : State), ∃ t : State, Host.Core.run Sys2Proof.core n s = .next t

/-- A step returns `IllegalOpcode(op, p)` exactly when it fetches the unassigned byte `op` as its opcode, and `p` is the
address of that byte (R104, R213). -/
def Obligations.IllegalOpcodeIsReportedWithItsAddress : Prop :=
  ∀ (s : State) (op : Byte) (p : Addr),
    stepResult s = .fault (.illegalOpcode op p) ↔
      s.halted = false ∧ s.pc.toNat < s.cfg.memSize ∧ op = Memory.get s.mem s.pc.toNat ∧
        (∀ m, s.cfg.opc.byteOf m ≠ op) ∧ p = s.pc

/-- A step returns `AddressOutOfRange(x)` exactly in the four places of R107, in the order of R215: the opcode fetch,
an operand fetch after earlier ones that succeeded, the read of `LDA addr`, the write of `STA addr`. -/
def Obligations.AddressFaultIsReportedInItsFourPlaces : Prop :=
  ∀ (s : State) (x : Int),
    stepResult s = .fault (.addressOutOfRange x) ↔
      s.halted = false ∧
        ((s.cfg.memSize ≤ s.pc.toNat ∧ x = s.pc.toNat) ∨
          (s.pc.toNat < s.cfg.memSize ∧
            ∃ m, decodeOpcode s.cfg.opc (Memory.get s.mem s.pc.toNat) = .known m ∧
              ((∃ k, 1 ≤ k ∧ k < m.form.length ∧ (∀ j, j < k → s.fetchAddress j < s.cfg.memSize) ∧
                  s.cfg.memSize ≤ s.fetchAddress k ∧ x = s.fetchAddress k) ∨
                ((m = .ldaAbs ∨ m = .sta) ∧ (∀ j, j < 3 → s.fetchAddress j < s.cfg.memSize) ∧
                  ∃ addr : Addr,
                    addr.toNat = (Memory.get s.mem (s.fetchAddress 1)).toNat * 256 +
                      (Memory.get s.mem (s.fetchAddress 2)).toNat ∧
                    s.cfg.memSize ≤ addr.toNat ∧ x = addr.toNat))))

/-- A faulting step is precise: it records its fault, halts the CPU, and changes nothing else but `PC` (R108, R218; that
the core halts itself and keeps the record is the spec's decision D7, log 8). -/
def Obligations.FaultingStepRecordsHaltsAndIsPrecise : Prop :=
  ∀ (s : State) (f : Fault), stepResult s = .fault f →
    ∃ t, step s = .next t ∧ t = { s with pc := t.pc, halted := true, fault := some f }

/-- A running CPU halts by `HALT` or by a fault and by nothing else (R105, R112; the fault's part is D7, log 8). -/
def Obligations.RunningCpuHaltsOnlyByHaltOrFault : Prop :=
  ∀ (s : State), s.halted = false →
    ∃ t, step s = .next t ∧
      (t.halted = true ↔ (∃ f, stepResult s = .fault f) ∨ ∃ s1, fetchInstr s = .value .halt s1)

/-- R110: the step is a function of `PC`, `A`, `HALTED` and Memory, under one configuration: machines that agree on them
run through states that agree on them, with the same result at every step, however many steps they take. Each machine's
own latch is read by no step: the two keep theirs until both record the same fault. -/
def Obligations.StepReadsOnlyTheCpuAndMemory : Prop :=
  ∀ (n : Nat) (s u : State), s.pc = u.pc → s.a = u.a → s.halted = u.halted → s.mem = u.mem →
    s.cfg.memSize = u.cfg.memSize → s.cfg.opc = u.cfg.opc →
    ∃ t v : State, Host.Core.run Sys2Proof.core n s = .next t ∧ Host.Core.run Sys2Proof.core n u = .next v ∧
      t.pc = v.pc ∧ t.a = v.a ∧ t.halted = v.halted ∧ t.mem = v.mem ∧ stepResult t = stepResult v ∧
      (t.fault = v.fault ∨ (t.fault = s.fault ∧ v.fault = u.fault))

/-- A step never writes the configuration, the back buffer, the snapshot, the grid, `CHANGED` or `IMAGE_LEN` (R28, R29,
R31, R32, R33, R35). -/
def Obligations.StepLeavesTheDevicesAlone : Prop :=
  ∀ (s : State), ∃ t, step s = .next t ∧
    t.cfg = s.cfg ∧ t.bb = s.bb ∧ t.snap = s.snap ∧ t.grid = s.grid ∧ t.changed = s.changed ∧
    t.imageLen = s.imageLen

/-- A step that fetches `STA addr` writes no cell but `M[addr]`, and any other step writes none (R60, R106). -/
def Obligations.StepWritesMemoryOnlyByStore : Prop :=
  ∀ (s : State), ∃ t, step s = .next t ∧
    (∀ addr s1, fetchInstr s = .value (.sta addr) s1 →
      ∀ x, x ≠ addr.toNat → Memory.get t.mem x = Memory.get s.mem x) ∧
    ((∀ addr s1, fetchInstr s ≠ .value (.sta addr) s1) → t.mem = s.mem)

/-- A byte the host writes at `PC` is the byte the next fetch reads (R70; the remainder of a negative value is D10,
log 13). -/
def Obligations.WrittenByteIsFetchedNext : Prop :=
  ∀ (s : State) (v : Int), Memory.wf s.mem = true → s.pc.toNat < s.cfg.memSize →
    ∃ t, writeByte s s.pc.toNat v = .ok t ∧ t.pc = s.pc ∧
      fetch t = .value (BitVec.ofInt 8 v) { t with pc := s.pc + 1 }

/-! ## Instructions: result, completion and frame -/

/-- R140: `NOP` has no effect; a step over it advances `PC` by 1 and changes nothing else. -/
def Obligations.NopHasNoEffect : Prop :=
  (∀ (s : State), exec .nop s = .next s) ∧
  (∀ (s : State), s.IsAbout .nop → step s = .next { s with pc := s.pc + 1 })

/-- R120: `LDA #imm` writes `imm` to `A` and nothing else; a step over it advances `PC` by 2. -/
def Obligations.LoadImmediateWritesA : Prop :=
  (∀ (s : State) (imm : Byte), ∃ t, exec (.ldaImm imm) s = .next t ∧ t.a = imm ∧ t = { s with a := t.a }) ∧
  (∀ (s : State) (imm : Byte), s.IsAbout (.ldaImm imm) →
    ∃ t, step s = .next t ∧ t.a = imm ∧ t = { s with a := t.a, pc := s.pc + 2 })

/-- `LDA addr` inside Memory writes the cell's byte to `A` and nothing else; a step over it advances `PC` by 3 (R121). -/
def Obligations.LoadAbsoluteReadsTheCell : Prop :=
  (∀ (s : State) (addr : Addr), addr.toNat < s.cfg.memSize →
    ∃ t, exec (.ldaAbs addr) s = .next t ∧ t.a = Memory.get s.mem addr.toNat ∧ t = { s with a := t.a }) ∧
  (∀ (s : State) (addr : Addr), s.IsAbout (.ldaAbs addr) → addr.toNat < s.cfg.memSize →
    ∃ t, step s = .next t ∧ t.a = Memory.get s.mem addr.toNat ∧ t = { s with a := t.a, pc := s.pc + 3 })

/-- `STA addr` inside Memory writes `A` to cell `addr` and changes no other cell and no register; a step over it
advances `PC` by 3 (R122). -/
def Obligations.StoreAbsoluteWritesTheCell : Prop :=
  (∀ (s : State) (addr : Addr), Memory.wf s.mem = true → addr.toNat < s.cfg.memSize →
    ∃ t, exec (.sta addr) s = .next t ∧ Memory.get t.mem addr.toNat = s.a ∧
      (∀ x, x ≠ addr.toNat → Memory.get t.mem x = Memory.get s.mem x) ∧ t = { s with mem := t.mem }) ∧
  (∀ (s : State) (addr : Addr), Memory.wf s.mem = true → s.IsAbout (.sta addr) → addr.toNat < s.cfg.memSize →
    ∃ t, step s = .next t ∧ Memory.get t.mem addr.toNat = s.a ∧
      (∀ x, x ≠ addr.toNat → Memory.get t.mem x = Memory.get s.mem x) ∧
      t = { s with mem := t.mem, pc := s.pc + 3 })

/-- `LDA addr` and `STA addr` outside Memory raise `AddressOutOfRange(addr)`: the fault is recorded, the CPU halts, and
`A`, Memory and all else but `PC` are unchanged (R107, R121, R122; the halt and the record are D7, log 8; no statement
reads `PC` after a fault, log 9). -/
def Obligations.AbsoluteAccessOutsideMemoryFaults : Prop :=
  ∀ (s : State) (addr : Addr), s.cfg.memSize ≤ addr.toNat →
    (∃ t, exec (.ldaAbs addr) s = .next t ∧
      t = { s with pc := t.pc, halted := true, fault := some (.addressOutOfRange addr.toNat) }) ∧
    (∃ t, exec (.sta addr) s = .next t ∧
      t = { s with pc := t.pc, halted := true, fault := some (.addressOutOfRange addr.toNat) })

/-- R130: `ADD #imm` writes `(A + imm) mod 256` to `A` and nothing else; a step over it advances `PC` by 2. -/
def Obligations.AddImmediateWrapsModulo256 : Prop :=
  (∀ (s : State) (imm : Byte), ∃ t, exec (.add imm) s = .next t ∧
    t.a.toNat = (s.a.toNat + imm.toNat) % 256 ∧ t = { s with a := t.a }) ∧
  (∀ (s : State) (imm : Byte), s.IsAbout (.add imm) →
    ∃ t, step s = .next t ∧ t.a.toNat = (s.a.toNat + imm.toNat) % 256 ∧ t = { s with a := t.a, pc := s.pc + 2 })

/-- `SUB #imm` writes `(A - imm) mod 256`, the mathematical remainder, to `A` and nothing else; a step over it advances
`PC` by 2; and it equals `ADD` of `(256 - imm) mod 256` (R131). -/
def Obligations.SubImmediateWrapsModulo256 : Prop :=
  (∀ (s : State) (imm : Byte), ∃ t, exec (.sub imm) s = .next t ∧
    (t.a.toNat : Int) = ((s.a.toNat : Int) - imm.toNat) % 256 ∧ t = { s with a := t.a }) ∧
  (∀ (s : State) (imm : Byte), s.IsAbout (.sub imm) →
    ∃ t, step s = .next t ∧ (t.a.toNat : Int) = ((s.a.toNat : Int) - imm.toNat) % 256 ∧
      t = { s with a := t.a, pc := s.pc + 2 }) ∧
  (∀ (s : State) (imm : Byte), exec (.sub imm) s = exec (.add (BitVec.ofNat 8 ((256 - imm.toNat) % 256))) s)

/-- `ADD` and `SUB` give the same bits when `A` and `imm` are read as two's complement (R132). -/
def Obligations.ArithmeticIgnoresSignedness : Prop :=
  ∀ (s : State) (imm : Byte), ∃ t u, exec (.add imm) s = .next t ∧ exec (.sub imm) s = .next u ∧
    t.a.toInt % 256 = (s.a.toInt + imm.toInt) % 256 ∧ u.a.toInt % 256 = (s.a.toInt - imm.toInt) % 256

/-- R142: `JMP addr` writes `addr` to `PC` and nothing else, wherever it stands and whether or not `addr` is in Memory. -/
def Obligations.JumpWritesPc : Prop :=
  (∀ (s : State) (addr : Addr), ∃ t, exec (.jmp addr) s = .next t ∧ t.pc = addr ∧ t = { s with pc := t.pc }) ∧
  (∀ (s : State) (addr : Addr), s.IsAbout (.jmp addr) → step s = .next { s with pc := addr })

/-- R143: `JZ addr` writes `addr` to `PC` if `A = 0` and falls through to the next instruction otherwise; it changes
nothing else. All three bytes are fetched whatever `A` is, so an operand byte outside Memory faults either way. -/
def Obligations.JumpIfZeroTestsA : Prop :=
  (∀ (s : State) (addr : Addr), ∃ t, exec (.jz addr) s = .next t ∧
    t.pc = (if s.a.toNat = 0 then addr else s.pc) ∧ t = { s with pc := t.pc }) ∧
  (∀ (s : State) (addr : Addr), s.IsAbout (.jz addr) →
    ∃ t, step s = .next t ∧ t.pc = (if s.a.toNat = 0 then addr else s.pc + 3) ∧ t = { s with pc := t.pc }) ∧
  (∀ (s : State) (k : Nat), s.halted = false → decodeOpcode s.cfg.opc (Memory.get s.mem s.pc.toNat) = .known .jz →
    1 ≤ k → k ≤ 2 → (∀ j, j < k → s.fetchAddress j < s.cfg.memSize) → s.cfg.memSize ≤ s.fetchAddress k →
    stepResult s = .fault (.addressOutOfRange (s.fetchAddress k)))

/-- A jump to a target outside Memory is accepted, and the next step's opcode fetch raises `AddressOutOfRange(target)`
(R141). -/
def Obligations.JumpOutsideMemoryFaultsAtTheNextFetch : Prop :=
  ∀ (s : State) (addr : Addr), s.halted = false → s.cfg.memSize ≤ addr.toNat →
    (∃ t, exec (.jmp addr) s = .next t ∧ t.halted = false ∧ t.fault = s.fault ∧
      stepResult t = .fault (.addressOutOfRange addr.toNat)) ∧
    (s.a = 0 → ∃ t, exec (.jz addr) s = .next t ∧ t.halted = false ∧ t.fault = s.fault ∧
      stepResult t = .fault (.addressOutOfRange addr.toNat))

/-- R146: `HALT` sets `HALTED` and writes nothing else, `FAULT` included; a step over it leaves `PC` one past it, and every
later step is a no-op that returns `Ok`. -/
def Obligations.HaltSetsHalted : Prop :=
  (∀ (s : State), ∃ t, exec .halt s = .next t ∧ t.halted = true ∧ t = { s with halted := t.halted }) ∧
  (∀ (s : State), s.IsAbout .halt →
    ∃ t, step s = .next t ∧ t = { s with halted := true, pc := s.pc + 1 } ∧ step t = .next t ∧ stepResult t = .ok)

/-! ## The memory controller -/

/-- R52: `read_byte` answers the cell inside `[0, MEM_SIZE)` and `AddressOutOfRange(addr)` outside it. -/
def Obligations.ReadByteChecksBounds : Prop :=
  ∀ (s : State) (addr : Int),
    (0 ≤ addr → addr < s.cfg.memSize → readByte s addr = .ok (Memory.get s.mem addr.toNat)) ∧
    (addr < 0 ∨ (s.cfg.memSize : Int) ≤ addr → readByte s addr = .error (.addressOutOfRange addr))

/-- After `write_byte` inside Memory the cell reads `value mod 256`, every other address reads as before, and no register
changed; outside Memory it raises `AddressOutOfRange(addr)` (R53; the remainder of a negative value is D10, log 13). -/
def Obligations.WriteByteThenReadByte : Prop :=
  ∀ (s : State) (addr value : Int), Memory.wf s.mem = true →
    (0 ≤ addr → addr < s.cfg.memSize →
      ∃ t b, writeByte s addr value = .ok t ∧ readByte t addr = .ok b ∧ (b.toNat : Int) = value % 256 ∧
        (∀ x, x ≠ addr → readByte t x = readByte s x) ∧ t = { s with mem := t.mem }) ∧
    (addr < 0 ∨ (s.cfg.memSize : Int) ≤ addr → writeByte s addr value = .error (.addressOutOfRange addr))

/-- R54: `write_block` writes every byte of its range and no other cell, or fails with `BlockOverflow` and writes none. -/
def Obligations.WriteBlockIsAllOrNothing : Prop :=
  ∀ (s : State) (start : Int) (bytes : List Byte), Memory.wf s.mem = true →
    (start < 0 ∨ start + bytes.length > s.cfg.memSize →
      writeBlock s start bytes = .error (.blockOverflow start bytes.length)) ∧
    (0 ≤ start → start + bytes.length ≤ s.cfg.memSize →
      ∃ t, writeBlock s start bytes = .ok t ∧
        (∀ k (h : k < bytes.length), readByte t (start + k) = .ok bytes[k]) ∧
        (∀ x, x < start ∨ start + bytes.length ≤ x → readByte t x = readByte s x) ∧
        t = { s with mem := t.mem })

/-- `read_word16` is `byte[addr]*256 + byte[addr+1]`, and fails like the first of the two reads that fails (R55; the
reported address is D11, log 15). -/
def Obligations.ReadWord16IsBigEndian : Prop :=
  ∀ (s : State) (addr : Int),
    (0 ≤ addr → addr + 1 < s.cfg.memSize →
      ∃ w, readWord16 s addr = .ok w ∧
        w.toNat = (Memory.get s.mem addr.toNat).toNat * 256 + (Memory.get s.mem (addr + 1).toNat).toNat) ∧
    (addr < 0 ∨ (s.cfg.memSize : Int) ≤ addr → readWord16 s addr = .error (.addressOutOfRange addr)) ∧
    (0 ≤ addr → addr + 1 = s.cfg.memSize → readWord16 s addr = .error (.addressOutOfRange (addr + 1)))

/-! ## Construction, reboot and the loader -/

/-- Construction gives a running machine whose cell `a` holds `INIT_MEM[a]` (R38, R240). The spec's choices: that a
configuration that breaks R9 is refused (D3, log 18), that there is no fault (D7, log 8), that memory is an argument (D5,
log 6), that `PC`, `A`, `BB`, `SNAP` and `IMAGE_LEN` are 0, `CHANGED` false and `GRID` all `PALETTE[0]` (D6, D16, D17,
D18; logs 7 and 10). -/
def Obligations.ConstructionGivesTheTableValues : Prop :=
  ∀ (cfg : Config) (initMem : Nat → Byte),
    ((1 ≤ cfg.memSize ∧ 1 ≤ cfg.width ∧ 1 ≤ cfg.height ∧ cfg.vramStart + cfg.width * cfg.height ≤ cfg.memSize) →
      ∃ s, construct cfg initMem = .ok s ∧ s.cfg = cfg ∧ s.halted = false ∧ s.fault = none ∧
        (∀ a, a < cfg.memSize → Memory.get s.mem a = initMem a) ∧
        s.pc = 0 ∧ s.a = 0 ∧ s.changed = false ∧ s.imageLen = 0 ∧
        (∀ i, i < cfg.width * cfg.height →
          s.bb[i]? = some 0 ∧ s.snap[i]? = some 0 ∧ s.grid[i]? = some (paletteAt cfg 0))) ∧
    (¬(1 ≤ cfg.memSize ∧ 1 ≤ cfg.width ∧ 1 ≤ cfg.height ∧ cfg.vramStart + cfg.width * cfg.height ≤ cfg.memSize) →
      construct cfg initMem = .error .invalidConfiguration)

/-- The reset state is the construction with the reference configuration and zeroed memory (the model's choices of logs
2 to 7 and 10, on R240). -/
def Obligations.ResetIsTheReferenceConstruction : Prop :=
  construct referenceConfig (fun _ => 0) = .ok State.reset

/-- R242: `reboot(X)` gives `PC = X mod 65536`, `A = 0` and `HALTED = false` from any state, and is idempotent. It writes
nothing but the CPU's registers and the fault latch: not Memory, `BB`, `SNAP`, `GRID`, `CHANGED`, `IMAGE_LEN` or the
configuration (R241). -/
def Obligations.RebootRestartsFromAnyState : Prop :=
  ∀ (s : State) (x : Int), ∃ t, reboot x s = t ∧
    (t.pc.toNat : Int) = x % 65536 ∧ t.a = 0 ∧ t.halted = false ∧ reboot x t = t ∧
    t = { s with pc := t.pc, a := t.a, halted := t.halted, fault := t.fault }

/-- `load` fails with `BlockOverflow` like the bulk write, and otherwise copies the image and nothing else into Memory,
records its length and reboots at `base` (R243; the length register is D18, log 10; the latch is D7, log 8). -/
def Obligations.LoadCopiesThenReboots : Prop :=
  ∀ (s : State) (bytes : List Byte) (base : Int), Memory.wf s.mem = true →
    (base < 0 ∨ base + bytes.length > s.cfg.memSize →
      load bytes base s = .error (.blockOverflow base bytes.length)) ∧
    (0 ≤ base → base + bytes.length ≤ s.cfg.memSize →
      ∃ t, load bytes base s = .ok t ∧
        (∀ k (h : k < bytes.length), readByte t (base + k) = .ok bytes[k]) ∧
        (∀ x, x < base ∨ base + bytes.length ≤ x → readByte t x = readByte s x) ∧
        (t.pc.toNat : Int) = base % 65536 ∧
        t = { s with mem := t.mem, pc := t.pc, a := 0, halted := false, fault := none, imageLen := bytes.length })

/-- The start address of a nonempty load lies in Memory; an empty load at `MEM_SIZE` succeeds and starts the CPU at
`MEM_SIZE mod 65536`, so where `MEM_SIZE < 65536` the first step raises `AddressOutOfRange(MEM_SIZE)` (R245). -/
def Obligations.LoadStartsInMemoryUnlessEmpty : Prop :=
  (∀ (s t : State) (bytes : List Byte) (base : Int), bytes ≠ [] → load bytes base s = .ok t →
    t.pc.toNat < t.cfg.memSize) ∧
  (∀ (s : State), ∃ t, load [] s.cfg.memSize s = .ok t ∧ t.pc.toNat = s.cfg.memSize % 65536 ∧
    (s.cfg.memSize < 65536 → stepResult t = .fault (.addressOutOfRange s.cfg.memSize)))

/-! ## The Video Surface. Cell `(x, y)` of the back buffer is `BB[y*WIDTH + x]` (R28, R160). -/

/-- `clear` sets every cell of the back buffer to the index and writes nothing else (R162; that an index outside 0..255 is
reduced to 8 bits is D15, log 13). -/
def Obligations.ClearFillsTheBackBuffer : Prop :=
  ∀ (s : State) (index : Int), ∃ b : Byte, (b.toNat : Int) = index % 256 ∧
    (clear index s).bb.length = s.cfg.width * s.cfg.height ∧
    (∀ i, i < s.cfg.width * s.cfg.height → (clear index s).bb[i]? = some b) ∧
    clear index s = { s with bb := (clear index s).bb }

/-- `set_pixel` sets the one cell `(x, y)`, or has no effect outside the surface (R163; that an index outside 0..255 is
reduced to 8 bits is D15, log 13). -/
def Obligations.SetPixelSetsOneCell : Prop :=
  ∀ (s : State) (x y index : Int), s.bb.length = s.cfg.pixels →
    (∀ cx cy : Int, 0 ≤ cx → cx < s.cfg.width → 0 ≤ cy → cy < s.cfg.height →
      (setPixel x y index s).bb[(cy * s.cfg.width + cx).toNat]? =
        if cx = x ∧ cy = y then some (BitVec.ofInt 8 index) else s.bb[(cy * s.cfg.width + cx).toNat]?) ∧
    (x < 0 ∨ (s.cfg.width : Int) ≤ x ∨ y < 0 ∨ (s.cfg.height : Int) ≤ y → setPixel x y index s = s) ∧
    setPixel x y index s = { s with bb := (setPixel x y index s).bb } ∧
    (setPixel x y index s).bb.length = s.bb.length

/-- `fill_rect` sets exactly the surface cells with `x <= cx < x+w` and `y <= cy < y+h` (R164; that an index outside 0..255
is reduced to 8 bits is D15, log 13). -/
def Obligations.FillRectCoversTheClippedRectangle : Prop :=
  ∀ (s : State) (x y w h index : Int), s.bb.length = s.cfg.pixels →
    (∀ cx cy : Int, 0 ≤ cx → cx < s.cfg.width → 0 ≤ cy → cy < s.cfg.height →
      (fillRect x y w h index s).bb[(cy * s.cfg.width + cx).toNat]? =
        if x ≤ cx ∧ cx < x + w ∧ y ≤ cy ∧ cy < y + h then some (BitVec.ofInt 8 index)
        else s.bb[(cy * s.cfg.width + cx).toNat]?) ∧
    fillRect x y w h index s = { s with bb := (fillRect x y w h index s).bb } ∧
    (fillRect x y w h index s).bb.length = s.bb.length

/-- `draw_rect` sets exactly the surface cells on the border of the unclipped rectangle (R165; that the unclipped
border is meant is the spec's choice D14, log 14; the index is reduced as D15 says, log 13). -/
def Obligations.DrawRectPaintsTheUnclippedBorder : Prop :=
  ∀ (s : State) (x y w h index : Int), s.bb.length = s.cfg.pixels →
    (∀ cx cy : Int, 0 ≤ cx → cx < s.cfg.width → 0 ≤ cy → cy < s.cfg.height →
      (drawRect x y w h index s).bb[(cy * s.cfg.width + cx).toNat]? =
        if (x ≤ cx ∧ cx < x + w ∧ y ≤ cy ∧ cy < y + h) ∧
            (cx = x ∨ cx = x + w - 1 ∨ cy = y ∨ cy = y + h - 1) then some (BitVec.ofInt 8 index)
        else s.bb[(cy * s.cfg.width + cx).toNat]?) ∧
    drawRect x y w h index s = { s with bb := (drawRect x y w h index s).bb } ∧
    (drawRect x y w h index s).bb.length = s.bb.length

/-- `draw_text` sets exactly the surface cells under a 1 bit of a glyph, glyph `k` standing at `x + 6*k` (R166; that 0
bits are not painted is the spec's choice D13, log 5; the index is reduced as D15 says, log 13). -/
def Obligations.DrawTextPaintsTheGlyphBits : Prop :=
  ∀ (s : State) (x y index : Int) (text : List CodePoint), s.bb.length = s.cfg.pixels →
    (∀ cx cy : Int, 0 ≤ cx → cx < s.cfg.width → 0 ≤ cy → cy < s.cfg.height →
      ((∃ (k : Nat) (h : k < text.length) (row : Fin 7) (col : Fin 5),
          (glyph s.cfg text[k])[row][col] = true ∧ cx = x + 6 * (k : Int) + (col.val : Int) ∧
            cy = y + (row.val : Int)) →
        (drawText x y text index s).bb[(cy * s.cfg.width + cx).toNat]? = some (BitVec.ofInt 8 index)) ∧
      ((∀ (k : Nat) (h : k < text.length) (row : Fin 7) (col : Fin 5),
          (glyph s.cfg text[k])[row][col] = true →
            ¬(cx = x + 6 * (k : Int) + (col.val : Int) ∧ cy = y + (row.val : Int))) →
        (drawText x y text index s).bb[(cy * s.cfg.width + cx).toNat]? = s.bb[(cy * s.cfg.width + cx).toNat]?)) ∧
    drawText x y text index s = { s with bb := (drawText x y text index s).bb } ∧
    (drawText x y text index s).bb.length = s.bb.length

/-- `glyph(c)` is `FONT[fold(c)]`, and `FONT[' ']` where `FONT` has no entry for `fold(c)`; so the lookup ignores the case
of ASCII letters, and every character of a text that `FONT` does not map draws as a space does (R167; that `fold` is
ASCII's is D13, log 5). -/
def Obligations.GlyphLookupFoldsCaseAndFallsBackToSpace : Prop :=
  (∀ (cfg : Config) (c : CodePoint), ∃ folded : CodePoint,
    folded.val = (if 0x61 ≤ c.val ∧ c.val ≤ 0x7A then c.val - 0x20 else c.val) ∧
    (∀ g, cfg.font.lookup folded = some g → glyph cfg c = g) ∧
    (cfg.font.lookup folded = none → ∀ g, cfg.font.lookup 0x20 = some g → glyph cfg c = g)) ∧
  (∀ (cfg : Config) (c : CodePoint), 0x61 ≤ c.val → c.val ≤ 0x7A →
    ∃ d : CodePoint, d.val = c.val - 0x20 ∧ glyph cfg c = glyph cfg d) ∧
  (∀ (s : State) (x y index : Int) (text : List CodePoint), fontWf s.cfg.font = true →
    drawText x y text index s =
      drawText x y (text.map fun c => if s.cfg.font.lookup (foldCase c) = none then space else c) index s)

/-- R169: a drawing operation writes the back buffer and nothing else, and no other operation, a Memory write or a step
among them, writes the back buffer. -/
def Obligations.OnlyDrawingWritesTheBackBuffer : Prop :=
  ∀ (op : HostOp) (s : State), ∃ t r, transact op s = .next (t, r) ∧
    (op.draws = true → t = { s with bb := t.bb } ∧ r = .done) ∧ (op.draws = false → t.bb = s.bb)

/-- R168: `present` copies the whole back buffer into the video region, changes no other cell, and keeps the back
buffer and every register. -/
def Obligations.PresentCopiesTheBackBuffer : Prop :=
  ∀ (s : State), s.cfg.fits = true → Memory.wf s.mem = true → s.bb.length = s.cfg.pixels →
    ∃ t, present s = .ok t ∧
      (∀ i, i < s.cfg.pixels → s.bb[i]? = some (Memory.get t.mem (s.cfg.vramStart + i))) ∧
      (∀ a, a < s.cfg.vramStart ∨ s.cfg.vramStart + s.cfg.pixels ≤ a →
        Memory.get t.mem a = Memory.get s.mem a) ∧
      t = { s with mem := t.mem }

/-! ## The Display Sampler -/

/-- R192: `render_frame` copies the video region into the snapshot, recolours exactly the cells that differ from the old
snapshot, returns whether any differed, holds that in `CHANGED`, and writes nothing else. Of a legal palette `paletteAt`
is entry `v` (R190). -/
def Obligations.RenderFrameDiffsTheVideoRegion : Prop :=
  ∀ (s : State), s.cfg.fits = true → s.snap.length = s.cfg.pixels → s.grid.length = s.cfg.pixels →
    ∃ t c, renderFrame s = .ok (t, c) ∧
      (∀ i, i < s.cfg.pixels →
        t.snap[i]? = some (Memory.get s.mem (s.cfg.vramStart + i)) ∧
        t.grid[i]? =
          if s.snap[i]? = some (Memory.get s.mem (s.cfg.vramStart + i)) then s.grid[i]?
          else some (paletteAt s.cfg (Memory.get s.mem (s.cfg.vramStart + i)))) ∧
      (c = true ↔ ∃ i, i < s.cfg.pixels ∧ s.snap[i]? ≠ some (Memory.get s.mem (s.cfg.vramStart + i))) ∧
      t.changed = c ∧
      t = { s with snap := t.snap, grid := t.grid, changed := t.changed } ∧
      (paletteWf s.cfg.palette = true → ∀ v : Byte, s.cfg.palette[v.toNat]? = some (paletteAt s.cfg v))

/-- `CHANGED` holds what `render_frame` returned, and a second `render_frame` with nothing in between reports no change
and recolours nothing (R192, R193; that `CHANGED` is a register is the spec's choice D17, log 10). -/
def Obligations.SecondFrameReportsNoChange : Prop :=
  ∀ (s : State), s.Inv → ∃ t c, renderFrame s = .ok (t, c) ∧ t.changed = c ∧
    renderFrame t = .ok ({ t with changed := false }, false)

/-- `present` followed at once by `render_frame` leaves `GRID[i] = PALETTE[BB[i]]` for every pixel, whatever the machine
did before (R195). -/
def Obligations.PresentThenRenderShowsTheBackBuffer : Prop :=
  ∀ (s : State), s.Inv → ∃ t u c, present s = .ok t ∧ renderFrame t = .ok (u, c) ∧
    u.grid = s.bb.map (paletteAt s.cfg)

/-- R194: the host reads the grid, one colour per pixel, together with `CHANGED`; and no operation other than
`render_frame` writes the grid, nor the snapshot (R29). -/
def Obligations.OnlyRenderFrameWritesTheGrid : Prop :=
  (∀ (s : State), s.Inv → s.grid.length = s.cfg.width * s.cfg.height ∧
    transact .readGrid s = .next (s, .pixels s.grid s.changed)) ∧
  (∀ (op : HostOp) (s : State), op ≠ .renderFrame → ∃ t r, transact op s = .next (t, r) ∧
    t.grid = s.grid ∧ t.snap = s.snap)

/-- R170, R196: under the configuration constraint no drawing operation, `present` or `render_frame` fails. -/
def Obligations.DevicesNeverFault : Prop :=
  ∀ (op : HostOp) (s : State), s.Inv → op.ofDevice = true →
    ∃ t r, transact op s = .next (t, r) ∧ ∀ e, r ≠ .failed e

/-- After one tick of the driver the grid shows the back buffer, whatever the program stored into the video region during
the tick (R246, R250). -/
def Obligations.TickShowsTheBackBuffer : Prop :=
  ∀ (n : Nat) (s : State), s.Inv → ∃ t results, tick n s = .next (t, results) ∧
    t.grid = s.bb.map (paletteAt s.cfg) ∧ t.bb = s.bb

/-! ## The whole machine -/

/-- R35: no operation of the host and no instruction writes the configuration. -/
def Obligations.NoOperationWritesTheConfiguration : Prop :=
  ∀ (op : HostOp) (s : State), ∃ t r, transact op s = .next (t, r) ∧ t.cfg = s.cfg

/-- Only a successful `load` writes `IMAGE_LEN`, and it writes the length of its image; only `render_frame` writes
`CHANGED` (R32, R33; that these are registers is the spec's choice, D17 and D18, log 10). -/
def Obligations.ImageLengthAndChangedHaveOneWriterEach : Prop :=
  ∀ (op : HostOp) (s : State), ∃ t r, transact op s = .next (t, r) ∧
    (t.imageLen = s.imageLen ∨ ∃ bytes base, op = .load bytes base ∧ r = .done ∧ t.imageLen = bytes.length) ∧
    (∀ bytes base, op = .load bytes base → r = .done → t.imageLen = bytes.length) ∧
    (op ≠ .renderFrame → t.changed = s.changed) ∧ (∀ c, r = .rendered c → t.changed = c)

/-- A host operation that fails changes no state, and fails the same way when repeated (R210, R212, R214). -/
def Obligations.FailedHostOperationChangesNothing : Prop :=
  ∀ (op : HostOp) (s t : State) (e : HostError), transact op s = .next (t, .failed e) →
    t = s ∧ transact op t = .next (t, .failed e)

/-- A halted CPU stays halted, with `PC`, `A` and `FAULT` unchanged, under every operation but `reboot` and `load`; every
operation is answered (R112, R226; the latch is D7, log 8). -/
def Obligations.HaltedIsLeftOnlyByReboot : Prop :=
  ∀ (op : HostOp) (s : State), s.halted = true → op.reboots = false →
    ∃ t r, transact op s = .next (t, r) ∧ t.halted = true ∧ t.pc = s.pc ∧ t.a = s.a ∧ t.fault = s.fault

/-- Only a faulting step, `reboot` and `load` write the latch: the step writes its fault, and a reboot clears it (R25, the
spec's own register: D7, log 8). -/
def Obligations.OnlyFaultsAndRebootWriteTheLatch : Prop :=
  ∀ (op : HostOp) (s : State), ∃ t r, transact op s = .next (t, r) ∧
    (t.fault = s.fault ∨ (∃ f, op = .step ∧ stepResult s = .fault f ∧ t.fault = some f) ∨
      (op.reboots = true ∧ r = .done ∧ t.fault = none)) ∧
    (∀ f, op = .step → stepResult s = .fault f → t.fault = some f) ∧
    (op.reboots = true → r = .done → t.fault = none)

/-- The reset state meets the invariant (R39). That `SNAP` is 0 and `GRID` all `PALETTE[0]` there is the spec's choice D17
(log 10); the latch, and that a fault is recorded only while halted, is its choice D7 (log 8). -/
def Obligations.ResetMeetsTheInvariant : Prop := State.reset.Inv

/-- Every step keeps the invariant: legal configuration, canonical memory below `MEM_SIZE`, buffers of the surface's size,
`GRID[i] = PALETTE[SNAP[i]]` (R39), and no fault recorded while running (R108, by the spec's choice D7, log 8). -/
def Obligations.StepKeepsTheInvariant : Prop :=
  ∀ (s t : State), s.Inv → step s = .next t → t.Inv

/-- Every host operation keeps the invariant (R39; that a fault is recorded only while halted rests on R108, the spec's
choice D7, log 8). -/
def Obligations.HostOperationsKeepTheInvariant : Prop :=
  ∀ (op : HostOp) (s t : State) (r : HostResult), s.Inv → transact op s = .next (t, r) → t.Inv

/-- From the construction of any legal machine, every sequence of host operations is answered and ends in a state that
meets the invariant (R39). It rests on the spec's choices for construction, `SNAP` 0 and `GRID` all `PALETTE[0]` (D17,
log 10), and for the latch (D7, log 8). -/
def Obligations.InvariantHoldsFromConstructionOnwards : Prop :=
  ∀ (cfg : Config) (initMem : Nat → Byte) (ops : List HostOp), cfg.wf = true →
    ∃ s t results, construct cfg initMem = .ok s ∧ runHost ops s = .next (t, results) ∧ t.Inv
end

