-- ==== Sys2Proof/Laws/Decode.lean ====
section
/-! SUPPORT. The small facts of the encoding: address assembly, the opcode parameter, and the search of the decoder. -/

namespace Sys2Proof

/-- Address assembly never overflows 16 bits (R133). -/
theorem joinAddr_toNat (hi lo : Byte) : (joinAddr hi lo).toNat = hi.toNat * 256 + lo.toNat := by
  have h := hi.isLt
  have l := lo.isLt
  rw [joinAddr, BitVec.toNat_ofNat, Nat.mod_eq_of_lt (by omega)]

/-- The two bytes of an address assemble to it. -/
theorem joinAddr_bytes (a : Addr) : joinAddr (highByte a) (lowByte a) = a := by
  have h := a.isLt
  refine BitVec.eq_of_toNat_eq ?_
  rw [joinAddr_toNat, highByte, lowByte, BitVec.toNat_ofNat, BitVec.toNat_ofNat]
  omega

theorem highByte_joinAddr (hi lo : Byte) : highByte (joinAddr hi lo) = hi := by
  have h := hi.isLt
  have l := lo.isLt
  refine BitVec.eq_of_toNat_eq ?_
  rw [highByte, joinAddr_toNat, BitVec.toNat_ofNat]
  omega

theorem lowByte_joinAddr (hi lo : Byte) : lowByte (joinAddr hi lo) = lo := by
  have h := hi.isLt
  have l := lo.isLt
  refine BitVec.eq_of_toNat_eq ?_
  rw [lowByte, joinAddr_toNat, BitVec.toNat_ofNat]
  omega

/-- Every mnemonic is in the list the decoder searches. -/
theorem Mnemonic.mem_all (m : Mnemonic) : m ∈ Mnemonic.all := by
  cases m <;> decide

/-- The opcode bytes are those of the nine mnemonics, in order. -/
theorem Opc.bytes_eq (o : Opc) : o.bytes = Mnemonic.all.map o.byteOf := rfl

/-- A well-formed `OPC` gives different mnemonics different bytes (R86). -/
theorem Opc.byteOf_inj (o : Opc) (h : o.wf = true) (m n : Mnemonic) (hmn : o.byteOf m = o.byteOf n) : m = n := by
  have hnd : (Mnemonic.all.map o.byteOf).Nodup := by
    rw [← Opc.bytes_eq]
    exact of_decide_eq_true h
  exact List.inj_on_of_nodup_map hnd (Mnemonic.mem_all m) (Mnemonic.mem_all n) hmn

/-- The encoding of an instruction is its opcode byte and its operand bytes. -/
theorem encode_head (o : Opc) (i : Instr) : ∃ rest, encode o i = o.byteOf i.mnemonic :: rest := by
  cases i <;> exact ⟨_, rfl⟩

/-! ## Bit strings (R81) -/

@[simp] theorem bitString_one (a : Byte) : bitString [a] = a.toNat := by simp [bitString]

@[simp] theorem bitString_two (a b : Byte) : bitString [a, b] = a.toNat * 256 + b.toNat := by simp [bitString]

@[simp] theorem bitString_three (a b c : Byte) :
    bitString [a, b, c] = a.toNat * 65536 + b.toNat * 256 + c.toNat := by simp [bitString, Nat.add_assoc]

/-- A bit string has no bit above its bytes. -/
theorem bitString_lt (bytes : List Byte) : bitString bytes < 256 ^ bytes.length := by
  induction bytes with
  | nil => decide
  | cons b bs ih =>
    have hb : (b.toNat + 1) * 256 ^ bs.length ≤ 256 * 256 ^ bs.length := Nat.mul_le_mul_right _ b.isLt
    rw [bitString, List.length_cons, Nat.pow_succ, Nat.mul_comm (256 ^ bs.length)]
    rw [Nat.add_mul] at hb
    omega

/-- The bits above the `n` bytes that are read do not count. -/
theorem bitStringBytes_high (n k w : Nat) : bitStringBytes n (k * 256 ^ n + w) = bitStringBytes n w := by
  induction n generalizing k with
  | zero => rfl
  | succ n ih =>
    have hk : k * 256 ^ (n + 1) = (k * 256) * 256 ^ n := by rw [Nat.pow_succ, Nat.mul_assoc, Nat.mul_comm 256]
    have hd : (k * 256 ^ (n + 1) + w) / 256 ^ n = w / 256 ^ n + 256 * k := by
      rw [hk, Nat.add_comm, Nat.add_mul_div_right _ _ (by positivity), Nat.mul_comm k]
    rw [bitStringBytes, bitStringBytes, hd, hk, ih]
    congr 1
    apply BitVec.eq_of_toNat_eq
    simp only [BitVec.toNat_ofNat]
    omega

/-- The bytes of a bit string are the bytes it was written from. -/
theorem bitStringBytes_bitString (bytes : List Byte) : bitStringBytes bytes.length (bitString bytes) = bytes := by
  induction bytes with
  | nil => rfl
  | cons b bs ih =>
    have hlt := bitString_lt bs
    rw [List.length_cons, bitStringBytes, bitString, bitStringBytes_high, ih, Nat.add_comm,
      Nat.add_mul_div_right _ _ (by positivity), Nat.div_eq_of_lt hlt, Nat.zero_add, BitVec.ofNat_toNat,
      BitVec.setWidth_eq]

/-- Formats N, I and A as bit strings: the opcode is most significant, an address lies high byte before low (R81). -/
theorem Instr.bitString_halt (o : Opc) : Instr.bitString o .halt = o.halt.toNat := bitString_one _

theorem Instr.bitString_ldaImm (o : Opc) (imm : Byte) :
    Instr.bitString o (.ldaImm imm) = o.ldaImm.toNat * 256 + imm.toNat := bitString_two _ _

theorem Instr.bitString_jmp (o : Opc) (addr : Addr) :
    Instr.bitString o (.jmp addr) = o.jmp.toNat * 65536 + addr.toNat := by
  have h : (highByte addr).toNat * 256 + (lowByte addr).toNat = addr.toNat := by rw [← joinAddr_toNat, joinAddr_bytes]
  rw [Instr.bitString, encode, bitString_three, Nat.add_assoc, h]

/-- The bytes of a table word of full length: its byte `k` is `w / 256^k` modulo 256. -/
theorem tableBytes_full (w : Nat) (h : w < 2 ^ 24) :
    tableBytes 24 w = [BitVec.ofNat 8 w, BitVec.ofNat 8 (w / 256), BitVec.ofNat 8 (w / 65536)] := by
  rw [tableBytes, Nat.mod_eq_of_lt h, show List.range 3 = [0, 1, 2] from rfl, List.map_cons, List.map_cons,
    List.map_cons, List.map_nil, Nat.shiftRight_eq_div_pow, Nat.shiftRight_eq_div_pow, Nat.shiftRight_eq_div_pow]
  simp

/-- A table word of the host's interface holds the same bytes in the reverse order (log 28). -/
theorem tableBytes_reversed (a b c : Byte) : tableBytes 24 (bitString [c, b, a]) = [a, b, c] := by
  have ha := a.isLt
  have hb := b.isLt
  have hc := c.isLt
  have byte : ∀ (x : Byte) (n : Nat), n % 256 = x.toNat → BitVec.ofNat 8 n = x := fun x n h =>
    BitVec.eq_of_toNat_eq h
  rw [bitString_three, tableBytes_full _ (by omega), byte a _ (by omega), byte b _ (by omega), byte c _ (by omega)]

end Sys2Proof
end

