-- ==== Sys2Proof/Laws/State.lean ====
section
/-! SUPPORT. The fields of a state after each update: one lemma per field per update, so that no later proof unfolds a
record update. -/

namespace Sys2Proof.Machine

variable (s : State)

@[simp] theorem State.setPc_cfg (v : Addr) : (s.setPc v).cfg = s.cfg := rfl
@[simp] theorem State.setPc_pc (v : Addr) : (s.setPc v).pc = v := rfl
@[simp] theorem State.setPc_a (v : Addr) : (s.setPc v).a = s.a := rfl
@[simp] theorem State.setPc_halted (v : Addr) : (s.setPc v).halted = s.halted := rfl
@[simp] theorem State.setPc_fault (v : Addr) : (s.setPc v).fault = s.fault := rfl
@[simp] theorem State.setPc_mem (v : Addr) : (s.setPc v).mem = s.mem := rfl
@[simp] theorem State.setPc_bb (v : Addr) : (s.setPc v).bb = s.bb := rfl
@[simp] theorem State.setPc_snap (v : Addr) : (s.setPc v).snap = s.snap := rfl
@[simp] theorem State.setPc_grid (v : Addr) : (s.setPc v).grid = s.grid := rfl
@[simp] theorem State.setPc_changed (v : Addr) : (s.setPc v).changed = s.changed := rfl
@[simp] theorem State.setPc_imageLen (v : Addr) : (s.setPc v).imageLen = s.imageLen := rfl

@[simp] theorem State.setA_cfg (v : Byte) : (s.setA v).cfg = s.cfg := rfl
@[simp] theorem State.setA_pc (v : Byte) : (s.setA v).pc = s.pc := rfl
@[simp] theorem State.setA_a (v : Byte) : (s.setA v).a = v := rfl
@[simp] theorem State.setA_halted (v : Byte) : (s.setA v).halted = s.halted := rfl
@[simp] theorem State.setA_fault (v : Byte) : (s.setA v).fault = s.fault := rfl
@[simp] theorem State.setA_mem (v : Byte) : (s.setA v).mem = s.mem := rfl
@[simp] theorem State.setA_bb (v : Byte) : (s.setA v).bb = s.bb := rfl
@[simp] theorem State.setA_snap (v : Byte) : (s.setA v).snap = s.snap := rfl
@[simp] theorem State.setA_grid (v : Byte) : (s.setA v).grid = s.grid := rfl
@[simp] theorem State.setA_changed (v : Byte) : (s.setA v).changed = s.changed := rfl
@[simp] theorem State.setA_imageLen (v : Byte) : (s.setA v).imageLen = s.imageLen := rfl

@[simp] theorem State.setHalted_cfg (v : Bool) : (s.setHalted v).cfg = s.cfg := rfl
@[simp] theorem State.setHalted_pc (v : Bool) : (s.setHalted v).pc = s.pc := rfl
@[simp] theorem State.setHalted_a (v : Bool) : (s.setHalted v).a = s.a := rfl
@[simp] theorem State.setHalted_halted (v : Bool) : (s.setHalted v).halted = v := rfl
@[simp] theorem State.setHalted_fault (v : Bool) : (s.setHalted v).fault = s.fault := rfl
@[simp] theorem State.setHalted_mem (v : Bool) : (s.setHalted v).mem = s.mem := rfl
@[simp] theorem State.setHalted_bb (v : Bool) : (s.setHalted v).bb = s.bb := rfl
@[simp] theorem State.setHalted_snap (v : Bool) : (s.setHalted v).snap = s.snap := rfl
@[simp] theorem State.setHalted_grid (v : Bool) : (s.setHalted v).grid = s.grid := rfl
@[simp] theorem State.setHalted_changed (v : Bool) : (s.setHalted v).changed = s.changed := rfl
@[simp] theorem State.setHalted_imageLen (v : Bool) : (s.setHalted v).imageLen = s.imageLen := rfl

@[simp] theorem State.setFault_cfg (v : Option Fault) : (s.setFault v).cfg = s.cfg := rfl
@[simp] theorem State.setFault_pc (v : Option Fault) : (s.setFault v).pc = s.pc := rfl
@[simp] theorem State.setFault_a (v : Option Fault) : (s.setFault v).a = s.a := rfl
@[simp] theorem State.setFault_halted (v : Option Fault) : (s.setFault v).halted = s.halted := rfl
@[simp] theorem State.setFault_fault (v : Option Fault) : (s.setFault v).fault = v := rfl
@[simp] theorem State.setFault_mem (v : Option Fault) : (s.setFault v).mem = s.mem := rfl
@[simp] theorem State.setFault_bb (v : Option Fault) : (s.setFault v).bb = s.bb := rfl
@[simp] theorem State.setFault_snap (v : Option Fault) : (s.setFault v).snap = s.snap := rfl
@[simp] theorem State.setFault_grid (v : Option Fault) : (s.setFault v).grid = s.grid := rfl
@[simp] theorem State.setFault_changed (v : Option Fault) : (s.setFault v).changed = s.changed := rfl
@[simp] theorem State.setFault_imageLen (v : Option Fault) : (s.setFault v).imageLen = s.imageLen := rfl

@[simp] theorem State.setMem_cfg (v : Memory) : (s.setMem v).cfg = s.cfg := rfl
@[simp] theorem State.setMem_pc (v : Memory) : (s.setMem v).pc = s.pc := rfl
@[simp] theorem State.setMem_a (v : Memory) : (s.setMem v).a = s.a := rfl
@[simp] theorem State.setMem_halted (v : Memory) : (s.setMem v).halted = s.halted := rfl
@[simp] theorem State.setMem_fault (v : Memory) : (s.setMem v).fault = s.fault := rfl
@[simp] theorem State.setMem_mem (v : Memory) : (s.setMem v).mem = v := rfl
@[simp] theorem State.setMem_bb (v : Memory) : (s.setMem v).bb = s.bb := rfl
@[simp] theorem State.setMem_snap (v : Memory) : (s.setMem v).snap = s.snap := rfl
@[simp] theorem State.setMem_grid (v : Memory) : (s.setMem v).grid = s.grid := rfl
@[simp] theorem State.setMem_changed (v : Memory) : (s.setMem v).changed = s.changed := rfl
@[simp] theorem State.setMem_imageLen (v : Memory) : (s.setMem v).imageLen = s.imageLen := rfl

@[simp] theorem State.setBb_cfg (v : List Byte) : (s.setBb v).cfg = s.cfg := rfl
@[simp] theorem State.setBb_pc (v : List Byte) : (s.setBb v).pc = s.pc := rfl
@[simp] theorem State.setBb_a (v : List Byte) : (s.setBb v).a = s.a := rfl
@[simp] theorem State.setBb_halted (v : List Byte) : (s.setBb v).halted = s.halted := rfl
@[simp] theorem State.setBb_fault (v : List Byte) : (s.setBb v).fault = s.fault := rfl
@[simp] theorem State.setBb_mem (v : List Byte) : (s.setBb v).mem = s.mem := rfl
@[simp] theorem State.setBb_bb (v : List Byte) : (s.setBb v).bb = v := rfl
@[simp] theorem State.setBb_snap (v : List Byte) : (s.setBb v).snap = s.snap := rfl
@[simp] theorem State.setBb_grid (v : List Byte) : (s.setBb v).grid = s.grid := rfl
@[simp] theorem State.setBb_changed (v : List Byte) : (s.setBb v).changed = s.changed := rfl
@[simp] theorem State.setBb_imageLen (v : List Byte) : (s.setBb v).imageLen = s.imageLen := rfl

@[simp] theorem State.setSnap_cfg (v : List Byte) : (s.setSnap v).cfg = s.cfg := rfl
@[simp] theorem State.setSnap_pc (v : List Byte) : (s.setSnap v).pc = s.pc := rfl
@[simp] theorem State.setSnap_a (v : List Byte) : (s.setSnap v).a = s.a := rfl
@[simp] theorem State.setSnap_halted (v : List Byte) : (s.setSnap v).halted = s.halted := rfl
@[simp] theorem State.setSnap_fault (v : List Byte) : (s.setSnap v).fault = s.fault := rfl
@[simp] theorem State.setSnap_mem (v : List Byte) : (s.setSnap v).mem = s.mem := rfl
@[simp] theorem State.setSnap_bb (v : List Byte) : (s.setSnap v).bb = s.bb := rfl
@[simp] theorem State.setSnap_snap (v : List Byte) : (s.setSnap v).snap = v := rfl
@[simp] theorem State.setSnap_grid (v : List Byte) : (s.setSnap v).grid = s.grid := rfl
@[simp] theorem State.setSnap_changed (v : List Byte) : (s.setSnap v).changed = s.changed := rfl
@[simp] theorem State.setSnap_imageLen (v : List Byte) : (s.setSnap v).imageLen = s.imageLen := rfl

@[simp] theorem State.setGrid_cfg (v : List Colour) : (s.setGrid v).cfg = s.cfg := rfl
@[simp] theorem State.setGrid_pc (v : List Colour) : (s.setGrid v).pc = s.pc := rfl
@[simp] theorem State.setGrid_a (v : List Colour) : (s.setGrid v).a = s.a := rfl
@[simp] theorem State.setGrid_halted (v : List Colour) : (s.setGrid v).halted = s.halted := rfl
@[simp] theorem State.setGrid_fault (v : List Colour) : (s.setGrid v).fault = s.fault := rfl
@[simp] theorem State.setGrid_mem (v : List Colour) : (s.setGrid v).mem = s.mem := rfl
@[simp] theorem State.setGrid_bb (v : List Colour) : (s.setGrid v).bb = s.bb := rfl
@[simp] theorem State.setGrid_snap (v : List Colour) : (s.setGrid v).snap = s.snap := rfl
@[simp] theorem State.setGrid_grid (v : List Colour) : (s.setGrid v).grid = v := rfl
@[simp] theorem State.setGrid_changed (v : List Colour) : (s.setGrid v).changed = s.changed := rfl
@[simp] theorem State.setGrid_imageLen (v : List Colour) : (s.setGrid v).imageLen = s.imageLen := rfl

@[simp] theorem State.setChanged_cfg (v : Bool) : (s.setChanged v).cfg = s.cfg := rfl
@[simp] theorem State.setChanged_pc (v : Bool) : (s.setChanged v).pc = s.pc := rfl
@[simp] theorem State.setChanged_a (v : Bool) : (s.setChanged v).a = s.a := rfl
@[simp] theorem State.setChanged_halted (v : Bool) : (s.setChanged v).halted = s.halted := rfl
@[simp] theorem State.setChanged_fault (v : Bool) : (s.setChanged v).fault = s.fault := rfl
@[simp] theorem State.setChanged_mem (v : Bool) : (s.setChanged v).mem = s.mem := rfl
@[simp] theorem State.setChanged_bb (v : Bool) : (s.setChanged v).bb = s.bb := rfl
@[simp] theorem State.setChanged_snap (v : Bool) : (s.setChanged v).snap = s.snap := rfl
@[simp] theorem State.setChanged_grid (v : Bool) : (s.setChanged v).grid = s.grid := rfl
@[simp] theorem State.setChanged_changed (v : Bool) : (s.setChanged v).changed = v := rfl
@[simp] theorem State.setChanged_imageLen (v : Bool) : (s.setChanged v).imageLen = s.imageLen := rfl

@[simp] theorem State.setImageLen_cfg (v : Nat) : (s.setImageLen v).cfg = s.cfg := rfl
@[simp] theorem State.setImageLen_pc (v : Nat) : (s.setImageLen v).pc = s.pc := rfl
@[simp] theorem State.setImageLen_a (v : Nat) : (s.setImageLen v).a = s.a := rfl
@[simp] theorem State.setImageLen_halted (v : Nat) : (s.setImageLen v).halted = s.halted := rfl
@[simp] theorem State.setImageLen_fault (v : Nat) : (s.setImageLen v).fault = s.fault := rfl
@[simp] theorem State.setImageLen_mem (v : Nat) : (s.setImageLen v).mem = s.mem := rfl
@[simp] theorem State.setImageLen_bb (v : Nat) : (s.setImageLen v).bb = s.bb := rfl
@[simp] theorem State.setImageLen_snap (v : Nat) : (s.setImageLen v).snap = s.snap := rfl
@[simp] theorem State.setImageLen_grid (v : Nat) : (s.setImageLen v).grid = s.grid := rfl
@[simp] theorem State.setImageLen_changed (v : Nat) : (s.setImageLen v).changed = s.changed := rfl
@[simp] theorem State.setImageLen_imageLen (v : Nat) : (s.setImageLen v).imageLen = v := rfl

/-! Two shared updates of several registers at once. -/

@[simp] theorem takeFault_cfg (f : Fault) : (takeFault f s).cfg = s.cfg := rfl
@[simp] theorem takeFault_pc (f : Fault) : (takeFault f s).pc = s.pc := rfl
@[simp] theorem takeFault_a (f : Fault) : (takeFault f s).a = s.a := rfl
@[simp] theorem takeFault_halted (f : Fault) : (takeFault f s).halted = true := rfl
@[simp] theorem takeFault_fault (f : Fault) : (takeFault f s).fault = some f := rfl
@[simp] theorem takeFault_mem (f : Fault) : (takeFault f s).mem = s.mem := rfl
@[simp] theorem takeFault_bb (f : Fault) : (takeFault f s).bb = s.bb := rfl
@[simp] theorem takeFault_snap (f : Fault) : (takeFault f s).snap = s.snap := rfl
@[simp] theorem takeFault_grid (f : Fault) : (takeFault f s).grid = s.grid := rfl
@[simp] theorem takeFault_changed (f : Fault) : (takeFault f s).changed = s.changed := rfl
@[simp] theorem takeFault_imageLen (f : Fault) : (takeFault f s).imageLen = s.imageLen := rfl

@[simp] theorem reboot_cfg (x : Int) : (reboot x s).cfg = s.cfg := rfl
@[simp] theorem reboot_pc (x : Int) : (reboot x s).pc = addrOfInt x := rfl
@[simp] theorem reboot_a (x : Int) : (reboot x s).a = 0 := rfl
@[simp] theorem reboot_halted (x : Int) : (reboot x s).halted = false := rfl
@[simp] theorem reboot_fault (x : Int) : (reboot x s).fault = none := rfl
@[simp] theorem reboot_mem (x : Int) : (reboot x s).mem = s.mem := rfl
@[simp] theorem reboot_bb (x : Int) : (reboot x s).bb = s.bb := rfl
@[simp] theorem reboot_snap (x : Int) : (reboot x s).snap = s.snap := rfl
@[simp] theorem reboot_grid (x : Int) : (reboot x s).grid = s.grid := rfl
@[simp] theorem reboot_changed (x : Int) : (reboot x s).changed = s.changed := rfl
@[simp] theorem reboot_imageLen (x : Int) : (reboot x s).imageLen = s.imageLen := rfl

/-- Two states with equal fields are equal. -/
theorem State.eq_of_fields {s t : State} (cfg : s.cfg = t.cfg) (pc : s.pc = t.pc) (a : s.a = t.a)
    (halted : s.halted = t.halted) (fault : s.fault = t.fault) (mem : s.mem = t.mem) (bb : s.bb = t.bb)
    (snap : s.snap = t.snap) (grid : s.grid = t.grid) (changed : s.changed = t.changed)
    (imageLen : s.imageLen = t.imageLen) : s = t := by
  cases s
  cases t
  simp_all

end Sys2Proof.Machine
end

