-- ==== Sys2Proof/Laws/Memory.lean ====
section
/-! SUPPORT. Memory as data: what each operation reads as afterwards, and that each keeps the canonical form. -/

namespace Sys2Proof.Machine

/-! ## The canonical form -/

theorem Memory.wf_nil : Memory.wf [] = true := by decide

/-- The canonical form of a nonempty memory, read off its first cell. -/
theorem Memory.wf_cons (x : Nat) (v : Byte) (m : Memory) :
    Memory.wf ((x, v) :: m) = true ↔
      (∀ c ∈ m, x < c.1) ∧ v ≠ Memory.unlisted ∧ Memory.wf m = true := by
  simp only [Memory.wf, List.pairwise_cons, List.all_cons, Bool.and_eq_true, decide_eq_true_eq, bne_iff_ne]
  tauto

/-- An address below every listed one reads as unlisted. -/
theorem Memory.get_of_lt (m : Memory) (a : Nat) (h : ∀ c ∈ m, a < c.1) : Memory.get m a = Memory.unlisted := by
  induction m with
  | nil => rfl
  | cons c m ih =>
    have hc := h c (by simp)
    simp only [Memory.get, if_neg (Nat.ne_of_gt hc)]
    exact ih fun d hd => h d (by simp [hd])

/-- Every cell of a memory after a store is the stored one or was there before. -/
theorem Memory.mem_set (m : Memory) (a : Nat) (b : Byte) (c : Host.Cell) (h : c ∈ Memory.set m a b) :
    c = (a, b) ∨ c ∈ m := by
  induction m with
  | nil =>
    simp only [Memory.set] at h
    split at h <;> simp_all
  | cons d m ih =>
    obtain ⟨x, v⟩ := d
    simp only [Memory.set] at h
    split_ifs at h <;> simp only [List.mem_cons] at h ⊢
    all_goals tauto

/-- A store keeps the canonical form. -/
theorem Memory.wf_set (m : Memory) (a : Nat) (b : Byte) (h : Memory.wf m = true) :
    Memory.wf (Memory.set m a b) = true := by
  induction m with
  | nil =>
    simp only [Memory.set]
    split
    · exact Memory.wf_nil
    · exact (Memory.wf_cons _ _ _).2 ⟨by simp, by assumption, Memory.wf_nil⟩
  | cons d m ih =>
    obtain ⟨x, v⟩ := d
    obtain ⟨hx, hv, hm⟩ := (Memory.wf_cons _ _ _).1 h
    simp only [Memory.set]
    split_ifs with h1 h2 h3 h3
    · refine (Memory.wf_cons _ _ _).2 ⟨fun c hc => ?_, hv, ih hm⟩
      obtain rfl | hc := Memory.mem_set m a b c hc
      · exact h1
      · exact hx c hc
    · exact hm
    · exact (Memory.wf_cons _ _ _).2 ⟨h2 ▸ hx, h3, hm⟩
    · exact h
    · refine (Memory.wf_cons _ _ _).2 ⟨fun c hc => ?_, h3, h⟩
      obtain rfl | hc := List.mem_cons.1 hc
      · show a < x
        omega
      · have := hx c hc
        omega

/-! ## Reading after writing -/

/-- A store leaves every other address alone. -/
theorem Memory.get_set_ne (m : Memory) (a : Nat) (b : Byte) (c : Nat) (h : c ≠ a) :
    Memory.get (Memory.set m a b) c = Memory.get m c := by
  induction m with
  | nil =>
    simp only [Memory.set]
    split
    · rfl
    · simp only [Memory.get, if_neg (Ne.symm h)]
  | cons d m ih =>
    obtain ⟨x, v⟩ := d
    simp only [Memory.set]
    split_ifs with h1 h2 h3 h3
    · simp only [Memory.get, ih]
    · simp only [Memory.get, if_neg (show x ≠ c by omega)]
    · simp only [Memory.get, if_neg (show x ≠ c by omega), if_neg (Ne.symm h)]
    · rfl
    · simp only [Memory.get, if_neg (Ne.symm h)]

/-- A read of the stored address gives the stored byte. -/
theorem Memory.get_set_eq (m : Memory) (a : Nat) (b : Byte) (h : Memory.wf m = true) :
    Memory.get (Memory.set m a b) a = b := by
  induction m with
  | nil =>
    simp only [Memory.set]
    split
    · simp only [Memory.get]
      exact (by assumption : b = _).symm
    · simp [Memory.get]
  | cons d m ih =>
    obtain ⟨x, v⟩ := d
    obtain ⟨hx, hv, hm⟩ := (Memory.wf_cons _ _ _).1 h
    simp only [Memory.set]
    split_ifs with h1 h2 h3 h3
    · simp only [Memory.get, if_neg (Nat.ne_of_lt h1)]
      exact ih hm
    · rw [Memory.get_of_lt m a (h2 ▸ hx), h3]
    · simp only [Memory.get, if_true]
    · rw [h3]
      refine Memory.get_of_lt _ _ fun c hc => ?_
      obtain rfl | hc := List.mem_cons.1 hc
      · show a < x
        omega
      · have := hx c hc
        omega
    · simp only [Memory.get, if_true]

/-- Canonical memories that read alike are equal data. -/
theorem Memory.eq_of_get (m n : Memory) (hm : Memory.wf m = true) (hn : Memory.wf n = true)
    (h : ∀ a, Memory.get m a = Memory.get n a) : m = n := by
  induction m generalizing n with
  | nil =>
    cases n with
    | nil => rfl
    | cons d n =>
      obtain ⟨y, w⟩ := d
      obtain ⟨-, hw, -⟩ := (Memory.wf_cons _ _ _).1 hn
      exact absurd (by simpa [Memory.get] using (h y).symm) hw
  | cons c m ih =>
    obtain ⟨x, v⟩ := c
    obtain ⟨hx, hv, hm'⟩ := (Memory.wf_cons _ _ _).1 hm
    cases n with
    | nil => exact absurd (by simpa [Memory.get] using h x) hv
    | cons d n =>
      obtain ⟨y, w⟩ := d
      obtain ⟨hy, hw, hn'⟩ := (Memory.wf_cons _ _ _).1 hn
      have hxy : x = y := by
        rcases lt_trichotomy x y with hlt | heq | hgt
        · have h1 := h x
          rw [Memory.get_of_lt ((y, w) :: n) x (by
            intro c hc
            obtain rfl | hc := List.mem_cons.1 hc
            · exact hlt
            · exact hlt.trans (hy c hc))] at h1
          exact absurd (by simpa [Memory.get] using h1) hv
        · exact heq
        · have h1 := h y
          rw [Memory.get_of_lt ((x, v) :: m) y (by
            intro c hc
            obtain rfl | hc := List.mem_cons.1 hc
            · exact hgt
            · exact hgt.trans (hx c hc))] at h1
          exact absurd (by simpa [Memory.get] using h1.symm) hw
      subst hxy
      have hvw : v = w := by simpa [Memory.get] using h x
      subst hvw
      congr 1
      refine ih n hm' hn' fun a => ?_
      by_cases hax : a = x
      · subst hax
        rw [Memory.get_of_lt m a hx, Memory.get_of_lt n a hy]
      · have := h a
        simpa only [Memory.get, if_neg (Ne.symm hax)] using this

/-! ## Blocks -/

/-- A block store keeps the canonical form. -/
theorem Memory.wf_setBlock (bs : List Byte) (m : Memory) (a : Nat) (h : Memory.wf m = true) :
    Memory.wf (Memory.setBlock m a bs) = true := by
  induction bs generalizing m a with
  | nil => exact h
  | cons b bs ih => exact ih _ _ (Memory.wf_set m a b h)

/-- A block store adds no cell outside its range. -/
theorem Memory.mem_setBlock (bs : List Byte) (m : Memory) (a : Nat) (c : Host.Cell)
    (h : c ∈ Memory.setBlock m a bs) : (a ≤ c.1 ∧ c.1 < a + bs.length) ∨ c ∈ m := by
  induction bs generalizing m a with
  | nil => exact .inr h
  | cons b bs ih =>
    simp only [Memory.setBlock] at h
    simp only [List.length_cons]
    obtain h | h := ih _ _ h
    · left
      omega
    · obtain rfl | h := Memory.mem_set m a b c h
      · left
        simp only
        omega
      · exact .inr h

/-- A block store leaves every address outside its range alone. -/
theorem Memory.get_setBlock_outside (bs : List Byte) (m : Memory) (a c : Nat)
    (h : c < a ∨ a + bs.length ≤ c) : Memory.get (Memory.setBlock m a bs) c = Memory.get m c := by
  induction bs generalizing m a with
  | nil => rfl
  | cons b bs ih =>
    simp only [List.length_cons] at h
    rw [Memory.setBlock, ih _ _ (by omega), Memory.get_set_ne _ _ _ _ (by omega)]

/-- A block store puts byte `k` at address `a + k`. -/
theorem Memory.get_setBlock_inside (bs : List Byte) (m : Memory) (a k : Nat) (hm : Memory.wf m = true)
    (hk : k < bs.length) : Memory.get (Memory.setBlock m a bs) (a + k) = bs[k] := by
  induction bs generalizing m a k with
  | nil => simp at hk
  | cons b bs ih =>
    cases k with
    | zero =>
      rw [Memory.setBlock, Memory.get_setBlock_outside _ _ _ _ (by omega)]
      exact Memory.get_set_eq m a b hm
    | succ k =>
      have hk' : k < bs.length := by simpa using hk
      have := ih (Memory.set m a b) (a + 1) k (Memory.wf_set m a b hm) hk'
      rw [Memory.setBlock, show a + (k + 1) = a + 1 + k by omega, this]
      rfl

/-! ## Initial contents -/

/-- The initial memory is in canonical form. -/
theorem Memory.wf_ofFn (n : Nat) (init : Nat → Byte) : Memory.wf (Memory.ofFn n init) = true := by
  simp only [Memory.wf, Memory.ofFn, Bool.and_eq_true]
  refine ⟨decide_eq_true (List.Pairwise.filter _ ?_), by simp⟩
  rw [List.pairwise_map]
  exact List.pairwise_lt_range

/-- The initial memory lists no cell at or above its size. -/
theorem Memory.mem_ofFn (n : Nat) (init : Nat → Byte) (c : Host.Cell) (h : c ∈ Memory.ofFn n init) :
    c.1 < n ∧ c.2 = init c.1 := by
  simp only [Memory.ofFn, List.mem_filter, List.mem_map, List.mem_range] at h
  obtain ⟨⟨a, ha, rfl⟩, -⟩ := h
  exact ⟨ha, rfl⟩

/-- A listed cell of a canonical memory reads as its byte. -/
theorem Memory.get_of_mem (m : Memory) (c : Host.Cell) (hm : Memory.wf m = true) (h : c ∈ m) :
    Memory.get m c.1 = c.2 := by
  induction m with
  | nil => simp at h
  | cons d m ih =>
    obtain ⟨x, v⟩ := d
    obtain ⟨hx, -, hm'⟩ := (Memory.wf_cons _ _ _).1 hm
    obtain rfl | h := List.mem_cons.1 h
    · simp [Memory.get]
    · have := hx c h
      rw [Memory.get, if_neg (by omega), ih hm' h]

/-- An address that no cell lists reads as unlisted. -/
theorem Memory.get_of_not_mem (m : Memory) (a : Nat) (h : ∀ c ∈ m, c.1 ≠ a) :
    Memory.get m a = Memory.unlisted := by
  induction m with
  | nil => rfl
  | cons d m ih =>
    rw [Memory.get, if_neg (h d (by simp)), ih fun c hc => h c (by simp [hc])]

/-- Cell `a` of the initial memory is `init a` (R38). -/
theorem Memory.get_ofFn (n : Nat) (init : Nat → Byte) (a : Nat) (h : a < n) :
    Memory.get (Memory.ofFn n init) a = init a := by
  by_cases hb : init a = Memory.unlisted
  · rw [hb]
    refine Memory.get_of_not_mem _ _ ?_
    rintro ⟨x, v⟩ hc rfl
    simp only [Memory.ofFn, List.mem_filter, List.mem_map, List.mem_range] at hc
    obtain ⟨⟨y, hy, hyv⟩, hne⟩ := hc
    obtain ⟨rfl, rfl⟩ := Prod.mk.inj hyv
    exact absurd hb (by simpa using hne)
  · exact Memory.get_of_mem _ (a, init a) (Memory.wf_ofFn n init) (by
      simp only [Memory.ofFn, List.mem_filter, List.mem_map, List.mem_range]
      exact ⟨⟨a, h, rfl⟩, by simpa using hb⟩)

end Sys2Proof.Machine
end

