-- ==== Sys2Proof/Laws/Fetch.lean ====
section
/-! SUPPORT. What the memory controller and the fetch can answer: one lemma per operation and case, cited by later proofs
in place of unfolding. -/

namespace Sys2Proof.Machine

/-! ## The memory controller -/

theorem readByte_of_valid (s : State) (addr : Int) (h : s.valid addr) :
    readByte s addr = .ok (Memory.get s.mem addr.toNat) := if_pos h

theorem readByte_of_not_valid (s : State) (addr : Int) (h : ¬s.valid addr) :
    readByte s addr = .error (.addressOutOfRange addr) := if_neg h

theorem storeByte_of_valid (s : State) (addr : Int) (b : Byte) (h : s.valid addr) :
    storeByte s addr b = .ok (s.setMem (Memory.set s.mem addr.toNat b)) := if_pos h

theorem storeByte_of_not_valid (s : State) (addr : Int) (b : Byte) (h : ¬s.valid addr) :
    storeByte s addr b = .error (.addressOutOfRange addr) := if_neg h

theorem writeBlock_of_fits (s : State) (start : Int) (bytes : List Byte) (h0 : 0 ≤ start)
    (h1 : start + bytes.length ≤ s.cfg.memSize) :
    writeBlock s start bytes = .ok (s.setMem (Memory.setBlock s.mem start.toNat bytes)) :=
  if_neg (by omega)

theorem writeBlock_of_not_fits (s : State) (start : Int) (bytes : List Byte)
    (h : start < 0 ∨ start + bytes.length > s.cfg.memSize) :
    writeBlock s start bytes = .error (.blockOverflow start bytes.length) := if_pos h

/-- A bulk write that succeeds was in range and wrote its block, and nothing but memory. -/
theorem writeBlock_cases {s t : State} {start : Int} {bytes : List Byte} (h : writeBlock s start bytes = .ok t) :
    0 ≤ start ∧ start + bytes.length ≤ s.cfg.memSize ∧
      t = s.setMem (Memory.setBlock s.mem start.toNat bytes) := by
  unfold writeBlock at h
  split at h
  · cases h
  · rename_i hr
    exact ⟨by omega, by omega, (Except.ok.inj h).symm⟩

/-- A byte write that succeeds was in range and wrote one cell, and nothing but memory. -/
theorem storeByte_cases {s t : State} {addr : Int} {b : Byte} (h : storeByte s addr b = .ok t) :
    s.valid addr ∧ t = s.setMem (Memory.set s.mem addr.toNat b) := by
  unfold storeByte at h
  split at h
  · rename_i hv
    exact ⟨hv, (Except.ok.inj h).symm⟩
  · cases h

/-- A CPU address is valid exactly when it lies below `MEM_SIZE`. -/
theorem valid_addr (s : State) (n : Nat) : s.valid (n : Int) ↔ n < s.cfg.memSize := by
  unfold State.valid
  omega

/-! ## Fetching -/

theorem fetch_of_valid (s : State) (h : s.pc.toNat < s.cfg.memSize) :
    fetch s = .value (Memory.get s.mem s.pc.toNat) (s.setPc (s.pc + 1)) := by
  rw [fetch, readByte_of_valid s _ ((valid_addr s _).2 h)]
  rfl

theorem fetch_of_not_valid (s : State) (h : s.cfg.memSize ≤ s.pc.toNat) :
    fetch s = .raised (.addressOutOfRange s.pc.toNat) s := by
  rw [fetch, readByte_of_not_valid s _ (by rw [valid_addr]; omega)]

/-- Everything a fetch can answer. -/
theorem fetch_cases (s : State) :
    (s.pc.toNat < s.cfg.memSize ∧
      fetch s = .value (Memory.get s.mem s.pc.toNat) (s.setPc (s.pc + 1))) ∨
    (s.cfg.memSize ≤ s.pc.toNat ∧ fetch s = .raised (.addressOutOfRange s.pc.toNat) s) := by
  by_cases h : s.pc.toNat < s.cfg.memSize
  · exact .inl ⟨h, fetch_of_valid s h⟩
  · exact .inr ⟨by omega, fetch_of_not_valid s (by omega)⟩

/-- The state a part of a step ends in. -/
def Fetched.state {α : Type} : Fetched α → State
  | .value _ s => s
  | .raised _ s => s

/-- A fetch writes no register but `PC`. -/
theorem fetch_frame (s : State) : ∃ p, (fetch s).state = s.setPc p := by
  obtain ⟨-, h⟩ | ⟨-, h⟩ := fetch_cases s <;> rw [h]
  · exact ⟨_, rfl⟩
  · exact ⟨s.pc, rfl⟩

/-- Operand fetch writes no register but `PC`. -/
theorem fetchOperands_frame (form : OperandForm) (s : State) : ∃ p, (fetchOperands form s).state = s.setPc p := by
  cases form with
  | implied i => exact ⟨s.pc, rfl⟩
  | immediate mk =>
    obtain ⟨-, h⟩ | ⟨-, h⟩ := fetch_cases s <;> simp only [fetchOperands, h]
    · exact ⟨_, rfl⟩
    · exact ⟨s.pc, rfl⟩
  | absolute mk =>
    obtain ⟨-, h⟩ | ⟨-, h⟩ := fetch_cases s <;> simp only [fetchOperands, h]
    · obtain ⟨-, h'⟩ | ⟨-, h'⟩ := fetch_cases (s.setPc (s.pc + 1)) <;> simp only [h'] <;> exact ⟨_, rfl⟩
    · exact ⟨s.pc, rfl⟩

/-- Fetching an instruction writes no register but `PC`. -/
theorem fetchInstr_frame (s : State) : ∃ p, (fetchInstr s).state = s.setPc p := by
  obtain ⟨-, h⟩ | ⟨-, h⟩ := fetch_cases s <;> simp only [fetchInstr, h]
  · split
    · exact ⟨_, rfl⟩
    · obtain ⟨p, hp⟩ := fetchOperands_frame (Mnemonic.form _) (s.setPc (s.pc + 1))
      exact ⟨p, hp⟩
  · exact ⟨s.pc, rfl⟩

theorem fetchInstr_value_frame {s t : State} {i : Instr} (h : fetchInstr s = .value i t) : t = s.setPc t.pc := by
  obtain ⟨p, hp⟩ := fetchInstr_frame s
  rw [h] at hp
  have ht : t = s.setPc p := hp
  rw [ht]
  rfl

theorem fetchInstr_raised_frame {s t : State} {f : Fault} (h : fetchInstr s = .raised f t) : t = s.setPc t.pc := by
  obtain ⟨p, hp⟩ := fetchInstr_frame s
  rw [h] at hp
  have ht : t = s.setPc p := hp
  rw [ht]
  rfl

/-- Two fetches that answer alike: the same value or fault, each from its own state with the same `PC` after it. -/
def Fetched.Alike {α : Type} (s u : State) (x y : Fetched α) : Prop :=
  (∃ v p, x = .value v (s.setPc p) ∧ y = .value v (u.setPc p)) ∨
  (∃ f p, x = .raised f (s.setPc p) ∧ y = .raised f (u.setPc p))

/-- A fetch reads `PC`, memory and `MEM_SIZE` and nothing else (R110). -/
theorem fetch_congr (s u : State) (hpc : s.pc = u.pc) (hmem : s.mem = u.mem)
    (hsize : s.cfg.memSize = u.cfg.memSize) : Fetched.Alike s u (fetch s) (fetch u) := by
  by_cases h : s.pc.toNat < s.cfg.memSize
  · refine .inl ⟨_, _, fetch_of_valid s h, ?_⟩
    rw [fetch_of_valid u (by rw [← hpc, ← hsize]; exact h), hpc, hmem]
  · refine .inr ⟨_, s.pc, fetch_of_not_valid s (by omega), ?_⟩
    rw [fetch_of_not_valid u (by rw [← hpc, ← hsize]; omega), hpc]
    rfl

/-- Operand fetch reads `PC`, memory and `MEM_SIZE` and nothing else (R110). -/
theorem fetchOperands_congr (form : OperandForm) (s u : State) (hpc : s.pc = u.pc) (hmem : s.mem = u.mem)
    (hsize : s.cfg.memSize = u.cfg.memSize) :
    Fetched.Alike s u (fetchOperands form s) (fetchOperands form u) := by
  cases form with
  | implied i =>
    refine .inl ⟨i, s.pc, rfl, ?_⟩
    rw [hpc]
    rfl
  | immediate mk =>
    obtain ⟨b, p, h, h'⟩ | ⟨f, p, h, h'⟩ := fetch_congr s u hpc hmem hsize <;> simp only [fetchOperands, h, h']
    · exact .inl ⟨mk b, p, rfl, rfl⟩
    · exact .inr ⟨f, p, rfl, rfl⟩
  | absolute mk =>
    obtain ⟨b, p, h, h'⟩ | ⟨f, p, h, h'⟩ := fetch_congr s u hpc hmem hsize <;> simp only [fetchOperands, h, h']
    · obtain ⟨c, q, g, g'⟩ | ⟨f, q, g, g'⟩ := fetch_congr (s.setPc p) (u.setPc p) rfl hmem hsize <;>
        simp only [g, g']
      · exact .inl ⟨mk (joinAddr b c), q, rfl, rfl⟩
      · exact .inr ⟨f, q, rfl, rfl⟩
    · exact .inr ⟨f, p, rfl, rfl⟩

/-- Fetching an instruction reads `PC`, memory, `MEM_SIZE` and `OPC` and nothing else (R110). -/
theorem fetchInstr_congr (s u : State) (hpc : s.pc = u.pc) (hmem : s.mem = u.mem)
    (hsize : s.cfg.memSize = u.cfg.memSize) (hopc : s.cfg.opc = u.cfg.opc) :
    Fetched.Alike s u (fetchInstr s) (fetchInstr u) := by
  obtain ⟨b, p, h, h'⟩ | ⟨f, p, h, h'⟩ := fetch_congr s u hpc hmem hsize <;>
    simp only [fetchInstr, h, h', hopc]
  · cases decodeOpcode u.cfg.opc b with
    | unknown c => exact .inr ⟨.illegalOpcode c s.pc, p, rfl, by rw [hpc]⟩
    | known m =>
      obtain ⟨i, q, g, g'⟩ | ⟨f, q, g, g'⟩ := fetchOperands_congr m.form (s.setPc p) (u.setPc p) rfl hmem hsize
      · exact .inl ⟨i, q, g, g'⟩
      · exact .inr ⟨f, q, g, g'⟩
  · exact .inr ⟨f, p, rfl, rfl⟩

end Sys2Proof.Machine
end

