-- ==== Sys2Proof/Laws/Devices.lean ====
section
/-! SUPPORT. The two devices: what painting a sequence of cells leaves in the back buffer, and what a scan of the video
region leaves in the snapshot and the grid; the fold of characters and the entries of a palette. -/

namespace Sys2Proof.Machine

/-! ## Cells of the surface -/

/-- A cell of the surface has a place in the buffers. -/
theorem cellIndex_lt (c : Config) (x y : Int) (h : inSurface c x y) : cellIndex c x y < c.pixels := by
  obtain ⟨hx0, hx1, hy0, hy1⟩ := h
  obtain ⟨n, rfl⟩ := Int.eq_ofNat_of_zero_le hx0
  obtain ⟨m, rfl⟩ := Int.eq_ofNat_of_zero_le hy0
  have hn : n < c.width := by omega
  have hm : m + 1 ≤ c.height := by omega
  have key : (m + 1) * c.width ≤ c.height * c.width := Nat.mul_le_mul_right _ hm
  have : cellIndex c n m = m * c.width + n := by
    unfold cellIndex
    have : ((m : Int) * c.width + n) = ((m * c.width + n : Nat) : Int) := by push_cast; rfl
    rw [this, Int.toNat_natCast]
  rw [this, Config.pixels, Nat.mul_comm c.width]
  rw [Nat.add_mul] at key
  omega

/-- Two cells of the surface with the same place are the same cell. -/
theorem cellIndex_inj (c : Config) (x y x' y' : Int) (h : inSurface c x y) (h' : inSurface c x' y')
    (heq : cellIndex c x y = cellIndex c x' y') : x = x' ∧ y = y' := by
  obtain ⟨hx0, hx1, hy0, hy1⟩ := h
  obtain ⟨hx0', hx1', hy0', hy1'⟩ := h'
  have e : y * c.width + x = y' * c.width + x' := by
    have p1 : 0 ≤ y * c.width := Int.mul_nonneg hy0 (by omega)
    have p2 : 0 ≤ y' * c.width := Int.mul_nonneg hy0' (by omega)
    unfold cellIndex at heq
    omega
  have hy : y = y' := by
    rcases lt_trichotomy y y' with hlt | heq | hgt
    · have : (y + 1) * c.width ≤ y' * c.width := Int.mul_le_mul_of_nonneg_right (by omega) (by omega)
      rw [Int.add_mul] at this
      omega
    · exact heq
    · have : (y' + 1) * c.width ≤ y * c.width := Int.mul_le_mul_of_nonneg_right (by omega) (by omega)
      rw [Int.add_mul] at this
      omega
  subst hy
  exact ⟨by omega, rfl⟩

/-! ## Painting -/

@[simp] theorem paint_cfg (idx : Byte) (s : State) (x y : Int) : (paint idx s x y).cfg = s.cfg := by
  unfold paint
  split <;> rfl

/-- Painting writes the back buffer only. -/
theorem paint_frame (idx : Byte) (s : State) (x y : Int) : paint idx s x y = s.setBb (paint idx s x y).bb := by
  unfold paint
  split <;> rfl

@[simp] theorem paint_bb_length (idx : Byte) (s : State) (x y : Int) :
    (paint idx s x y).bb.length = s.bb.length := by
  unfold paint
  split
  · simp
  · rfl

/-- A cell after painting one. -/
theorem paint_cell (idx : Byte) (s : State) (x y cx cy : Int) (hlen : s.bb.length = s.cfg.pixels)
    (hc : inSurface s.cfg cx cy) :
    (paint idx s x y).bb[cellIndex s.cfg cx cy]? =
      if cx = x ∧ cy = y then some idx else s.bb[cellIndex s.cfg cx cy]? := by
  unfold paint
  by_cases hxy : cx = x ∧ cy = y
  · obtain ⟨rfl, rfl⟩ := hxy
    have hlt := cellIndex_lt s.cfg cx cy hc
    simp only [if_pos hc, State.setBb_bb, and_self, if_true]
    rw [List.getElem?_set_self (by omega)]
  · rw [if_neg hxy]
    split
    · rename_i hin
      rw [State.setBb_bb, List.getElem?_set_ne]
      intro heq
      exact hxy (cellIndex_inj s.cfg cx cy x y hc hin heq.symm)
    · rfl

@[simp] theorem paintAll_cfg (idx : Byte) (ps : List (Int × Int)) (s : State) :
    (paintAll idx ps s).cfg = s.cfg := by
  induction ps generalizing s with
  | nil => rfl
  | cons p ps ih => rw [paintAll, ih, paint_cfg]

/-- Painting a sequence of cells writes the back buffer only. -/
theorem paintAll_frame (idx : Byte) (ps : List (Int × Int)) (s : State) :
    paintAll idx ps s = s.setBb (paintAll idx ps s).bb := by
  induction ps generalizing s with
  | nil => rfl
  | cons p ps ih =>
    rw [paintAll, ih, paint_frame idx s]
    rfl

@[simp] theorem paintAll_bb_length (idx : Byte) (ps : List (Int × Int)) (s : State) :
    (paintAll idx ps s).bb.length = s.bb.length := by
  induction ps generalizing s with
  | nil => rfl
  | cons p ps ih => rw [paintAll, ih, paint_bb_length]

/-- A cell after painting a sequence: the index if the sequence holds it, its old value otherwise. -/
theorem paintAll_cell (idx : Byte) (ps : List (Int × Int)) (s : State) (cx cy : Int)
    (hlen : s.bb.length = s.cfg.pixels) (hc : inSurface s.cfg cx cy) :
    (paintAll idx ps s).bb[cellIndex s.cfg cx cy]? =
      if (cx, cy) ∈ ps then some idx else s.bb[cellIndex s.cfg cx cy]? := by
  induction ps generalizing s with
  | nil => rfl
  | cons p ps ih =>
    obtain ⟨x, y⟩ := p
    have h := ih (paint idx s x y) (by simpa using hlen) (by simpa using hc)
    rw [paint_cfg, paint_cell idx s x y cx cy hlen hc] at h
    rw [paintAll, h]
    by_cases h1 : (cx, cy) ∈ ps
    · simp [h1]
    · simp only [h1, if_false, List.mem_cons, or_false, Prod.mk.injEq]

/-- The integers of a range. -/
theorem mem_intRange (lo hi v : Int) : v ∈ intRange lo hi ↔ lo ≤ v ∧ v < hi := by
  unfold intRange
  simp only [List.mem_map, List.mem_range]
  constructor
  · rintro ⟨k, hk, rfl⟩
    omega
  · rintro ⟨h0, h1⟩
    exact ⟨(v - lo).toNat, by omega, by omega⟩

/-! ## Sampling -/

/-- The byte of the video region that pixel `i` samples (R30). -/
def videoByte (s : State) (i : Nat) : Byte := Memory.get s.mem (s.cfg.vramStart + i)

/-- One cell of the scan, when its read is in range. -/
theorem sampleCell_of_valid (s : State) (i : Nat) (h : s.cfg.vramStart + i < s.cfg.memSize) :
    sampleCell i s =
      if s.snap[i]? = some (videoByte s i) then .ok (s, false)
      else .ok ((s.setSnap (s.snap.set i (videoByte s i))).setGrid
        (s.grid.set i (paletteAt s.cfg (videoByte s i))), true) := by
  have hv : s.valid ((s.cfg.vramStart : Int) + (i : Int)) := ⟨by omega, by omega⟩
  rw [sampleCell, readByte_of_valid s _ hv,
    show ((s.cfg.vramStart : Int) + (i : Int)).toNat = s.cfg.vramStart + i by omega]
  rfl

/-- A scan writes the snapshot and the grid only. -/
theorem sampleCells_frame (is : List Nat) (s t : State) (c d : Bool) (h : sampleCells is s c = .ok (t, d)) :
    t = (s.setSnap t.snap).setGrid t.grid := by
  induction is generalizing s c with
  | nil =>
    obtain ⟨rfl, -⟩ := Prod.mk.inj (Except.ok.inj h)
    rfl
  | cons i is ih =>
    simp only [sampleCells] at h
    split at h
    · cases h
    · rename_i u e hu
      have ht := ih u _ h
      simp only [sampleCell] at hu
      split at hu
      · cases hu
      · split at hu <;> obtain ⟨rfl, -⟩ := Prod.mk.inj (Except.ok.inj hu) <;> rw [ht] <;> rfl

/-- A scan of distinct pixels whose reads are in range: what it leaves in the snapshot and the grid, and when it reports
a change. -/
theorem sampleCells_spec (is : List Nat) (s : State) (c : Bool) (hnd : is.Nodup)
    (hin : ∀ i ∈ is, s.cfg.vramStart + i < s.cfg.memSize)
    (hsnap : ∀ i ∈ is, i < s.snap.length) (hgrid : ∀ i ∈ is, i < s.grid.length) :
    ∃ t d, sampleCells is s c = .ok (t, d) ∧
      (∀ i, t.snap[i]? = if i ∈ is then some (videoByte s i) else s.snap[i]?) ∧
      (∀ i, t.grid[i]? =
        if i ∈ is ∧ s.snap[i]? ≠ some (videoByte s i) then some (paletteAt s.cfg (videoByte s i)) else s.grid[i]?) ∧
      (d = true ↔ c = true ∨ ∃ i ∈ is, s.snap[i]? ≠ some (videoByte s i)) := by
  induction is generalizing s c with
  | nil => exact ⟨s, c, rfl, by simp, by simp, by simp⟩
  | cons i is ih =>
    obtain ⟨hni, hnd'⟩ := List.nodup_cons.1 hnd
    have hi := sampleCell_of_valid s i (hin i (by simp))
    by_cases hd : s.snap[i]? = some (videoByte s i)
    · rw [if_pos hd] at hi
      obtain ⟨t, d, ht, h1, h2, h3⟩ := ih s (c || false) hnd' (fun j hj => hin j (by simp [hj]))
        (fun j hj => hsnap j (by simp [hj])) (fun j hj => hgrid j (by simp [hj]))
      refine ⟨t, d, by simp only [sampleCells, hi, ht], fun j => ?_, fun j => ?_, ?_⟩
      · rw [h1]
        by_cases hj : j = i
        · subst hj
          simp [hni, hd]
        · simp [hj]
      · rw [h2]
        by_cases hj : j = i
        · subst hj
          simp [hni, hd]
        · simp [hj]
      · rw [h3]
        simp [hd]
    · rw [if_neg hd] at hi
      generalize hu : (s.setSnap (s.snap.set i (videoByte s i))).setGrid
        (s.grid.set i (paletteAt s.cfg (videoByte s i))) = u at hi
      have hcfg : u.cfg = s.cfg := by rw [← hu]; rfl
      have hmem : u.mem = s.mem := by rw [← hu]; rfl
      have hus : u.snap = s.snap.set i (videoByte s i) := by rw [← hu]; rfl
      have hug : u.grid = s.grid.set i (paletteAt s.cfg (videoByte s i)) := by rw [← hu]; rfl
      have hvb : ∀ j, videoByte u j = videoByte s j := fun j => by rw [videoByte, videoByte, hcfg, hmem]
      obtain ⟨t, d, ht, h1, h2, h3⟩ := ih u (c || true) hnd'
        (fun j hj => by rw [hcfg]; exact hin j (by simp [hj]))
        (fun j hj => by rw [hus, List.length_set]; exact hsnap j (by simp [hj]))
        (fun j hj => by rw [hug, List.length_set]; exact hgrid j (by simp [hj]))
      refine ⟨t, d, by simp only [sampleCells, hi, ht], fun j => ?_, fun j => ?_, ?_⟩
      · rw [h1, hvb, hus]
        by_cases hj : j = i
        · subst hj
          simp [hni, List.getElem?_set_self (hsnap j (by simp))]
        · simp [hj, List.getElem?_set_ne (Ne.symm hj)]
      · rw [h2, hvb, hcfg, hus, hug]
        by_cases hj : j = i
        · subst hj
          simp [hni, hd, List.getElem?_set_self (hgrid j (by simp))]
        · simp [hj, List.getElem?_set_ne (Ne.symm hj)]
      · rw [h3]
        simp [hd]

/-! ## Glyphs and colours -/

/-- The fold as numbers: 0x20 less for `a`..`z` (R167). -/
theorem foldCase_val (c : CodePoint) :
    (foldCase c).val = if 0x61 ≤ c.val ∧ c.val ≤ 0x7A then c.val - 0x20 else c.val := by
  unfold foldCase
  split
  · rename_i h
    rw [Fin.sub_val_of_le (Fin.le_def.2 (show 0x20 ≤ c.val by omega))]
    rfl
  · rfl

/-- A character that has been folded folds to itself. -/
theorem foldCase_foldCase (c : CodePoint) : foldCase (foldCase c) = foldCase c := by
  apply Fin.ext
  rw [foldCase_val (foldCase c), foldCase_val c]
  by_cases h : 0x61 ≤ c.val ∧ c.val ≤ 0x7A
  · rw [if_pos h, if_neg (by omega)]
  · rw [if_neg h, if_neg h]

/-- A legal palette has an entry for each of the 256 indices (R190). -/
theorem palette_length (p : List Colour) (h : paletteWf p = true) : p.length = 256 := by
  rw [paletteWf, Bool.and_eq_true] at h
  exact eq_of_beq h.1

/-- `paletteAt` is the palette's entry wherever the palette has one (R190). -/
theorem paletteAt_of_lt (c : Config) (v : Byte) (h : v.toNat < c.palette.length) :
    c.palette[v.toNat]? = some (paletteAt c v) := by
  rw [paletteAt, List.getD_eq_getElem?_getD, List.getElem?_eq_getElem h]
  rfl

end Sys2Proof.Machine
end

