-- ==== Sys2Proof/Laws/Step.lean ====
section
/-! SUPPORT. What `exec` and `step` can answer: every case once, with the state each leads to. -/

namespace Sys2Proof.Machine

/-- Everything an instruction can do (R120-R146): the next state of each constructor. -/
theorem exec_cases (i : Instr) (s : State) :
    (i = .nop ∧ exec i s = .next s) ∨
    (∃ imm, i = .ldaImm imm ∧ exec i s = .next (s.setA imm)) ∨
    (∃ addr : Addr, i = .ldaAbs addr ∧ addr.toNat < s.cfg.memSize ∧
      exec i s = .next (s.setA (Memory.get s.mem addr.toNat))) ∨
    (∃ addr : Addr, i = .sta addr ∧ addr.toNat < s.cfg.memSize ∧
      exec i s = .next (s.setMem (Memory.set s.mem addr.toNat s.a))) ∨
    (∃ addr : Addr, (i = .ldaAbs addr ∨ i = .sta addr) ∧ s.cfg.memSize ≤ addr.toNat ∧
      exec i s = .next (takeFault (.addressOutOfRange addr.toNat) s)) ∨
    (∃ imm, i = .add imm ∧ exec i s = .next (s.setA (s.a + imm))) ∨
    (∃ imm, i = .sub imm ∧ exec i s = .next (s.setA (s.a - imm))) ∨
    (∃ addr, i = .jmp addr ∧ exec i s = .next (s.setPc addr)) ∨
    (∃ addr, i = .jz addr ∧ s.a = 0 ∧ exec i s = .next (s.setPc addr)) ∨
    (∃ addr, i = .jz addr ∧ s.a ≠ 0 ∧ exec i s = .next s) ∨
    (i = .halt ∧ exec i s = .next (s.setHalted true)) := by
  cases i with
  | nop => exact .inl ⟨rfl, rfl⟩
  | ldaImm imm => exact .inr (.inl ⟨imm, rfl, rfl⟩)
  | sta addr =>
    by_cases h : addr.toNat < s.cfg.memSize
    · refine .inr (.inr (.inr (.inl ⟨addr, rfl, h, ?_⟩)))
      simp only [exec, execSta, storeAbsolute, storeByte_of_valid s _ _ ((valid_addr s _).2 h)]
      rfl
    · refine .inr (.inr (.inr (.inr (.inl ⟨addr, .inr rfl, by omega, ?_⟩))))
      simp only [exec, execSta, storeAbsolute, storeByte_of_not_valid s _ _ (mt (valid_addr s _).1 h)]
  | ldaAbs addr =>
    by_cases h : addr.toNat < s.cfg.memSize
    · refine .inr (.inr (.inl ⟨addr, rfl, h, ?_⟩))
      simp only [exec, execLdaAbs, loadAbsolute, readByte_of_valid s _ ((valid_addr s _).2 h)]
      rfl
    · refine .inr (.inr (.inr (.inr (.inl ⟨addr, .inl rfl, by omega, ?_⟩))))
      simp only [exec, execLdaAbs, loadAbsolute, readByte_of_not_valid s _ (mt (valid_addr s _).1 h)]
  | add imm => exact .inr (.inr (.inr (.inr (.inr (.inl ⟨imm, rfl, rfl⟩)))))
  | sub imm => exact .inr (.inr (.inr (.inr (.inr (.inr (.inl ⟨imm, rfl, rfl⟩))))))
  | jmp addr => exact .inr (.inr (.inr (.inr (.inr (.inr (.inr (.inl ⟨addr, rfl, rfl⟩)))))))
  | jz addr =>
    by_cases h : s.a = 0
    · refine .inr (.inr (.inr (.inr (.inr (.inr (.inr (.inr (.inl ⟨addr, rfl, h, ?_⟩))))))))
      simp only [exec, execJz, accumulatorIsZero, h, beq_self_eq_true, if_true]
    · refine .inr (.inr (.inr (.inr (.inr (.inr (.inr (.inr (.inr (.inl ⟨addr, rfl, h, ?_⟩)))))))))
      simp only [exec, execJz, accumulatorIsZero, beq_iff_eq, h, if_false]
  | halt => exact .inr (.inr (.inr (.inr (.inr (.inr (.inr (.inr (.inr (.inr ⟨rfl, rfl⟩)))))))))

/-- Every instruction answers a next state. -/
theorem exec_next (i : Instr) (s : State) : ∃ t, exec i s = .next t := by
  obtain ⟨-, h⟩ | ⟨_, -, h⟩ | ⟨_, -, -, h⟩ | ⟨_, -, -, h⟩ | ⟨_, -, -, h⟩ | ⟨_, -, h⟩ | ⟨_, -, h⟩ | ⟨_, -, h⟩ |
    ⟨_, -, -, h⟩ | ⟨_, -, -, h⟩ | ⟨-, h⟩ := exec_cases i s <;> exact ⟨_, h⟩

theorem step_of_halted (s : State) (h : s.halted = true) : step s = .next s := by
  rw [step, if_pos h]

theorem step_of_raised {s u : State} {f : Fault} (h : s.halted = false) (hf : fetchInstr s = .raised f u) :
    step s = .next (takeFault f u) := by
  rw [step, h, hf]
  rfl

theorem step_of_value {s u : State} {i : Instr} (h : s.halted = false) (hf : fetchInstr s = .value i u) :
    step s = exec i u := by
  rw [step, h, hf]
  rfl

/-- Everything a step can do: nothing when halted, a fault of the fetch taken, or an instruction run. -/
theorem step_cases {s t : State} (h : step s = .next t) :
    (s.halted = true ∧ t = s) ∨
    (s.halted = false ∧ ∃ f u, fetchInstr s = .raised f u ∧ t = takeFault f u) ∨
    (s.halted = false ∧ ∃ i u, fetchInstr s = .value i u ∧ exec i u = .next t) := by
  cases hh : s.halted with
  | true =>
    rw [step_of_halted s hh] at h
    exact .inl ⟨rfl, (Host.Outcome.next.inj h).symm⟩
  | false =>
    cases hf : fetchInstr s with
    | raised f u =>
      rw [step_of_raised hh hf] at h
      exact .inr (.inl ⟨rfl, f, u, rfl, (Host.Outcome.next.inj h).symm⟩)
    | value i u =>
      rw [step_of_value hh hf] at h
      exact .inr (.inr ⟨rfl, i, u, rfl, h⟩)

end Sys2Proof.Machine
end

