-- ==== Sys2Proof/Laws/Host.lean ====
section
/-! SUPPORT. What a host transaction can do, once for all sixteen operations, and the facts of the configuration. -/

namespace Sys2Proof.Machine

/-- The constraints of R9. -/
theorem fits_iff (c : Config) :
    c.fits = true ↔ 1 ≤ c.memSize ∧ 1 ≤ c.width ∧ 1 ≤ c.height ∧ c.vramStart + c.pixels ≤ c.memSize := by
  simp [Config.fits, and_assoc]

/-- A legal configuration meets the constraints of R9. -/
theorem fits_of_wf (c : Config) (h : c.wf = true) : c.fits = true := by
  simp only [Config.wf, Bool.and_eq_true] at h
  exact h.1.1.1

/-- A successful `load` (R243). -/
theorem load_cases {s t : State} {bytes : List Byte} {base : Int} (h : load bytes base s = .ok t) :
    0 ≤ base ∧ base + bytes.length ≤ s.cfg.memSize ∧
      t = reboot base ((s.setMem (Memory.setBlock s.mem base.toNat bytes)).setImageLen bytes.length) := by
  unfold load at h
  split at h
  · cases h
  · rename_i u hu
    obtain ⟨h0, h1, rfl⟩ := writeBlock_cases hu
    exact ⟨h0, h1, (Except.ok.inj h).symm⟩

/-- A successful `render_frame` writes the snapshot, the grid and `CHANGED` only (R192). -/
theorem renderFrame_frame {s t : State} {c : Bool} (h : renderFrame s = .ok (t, c)) :
    t = ((s.setSnap t.snap).setGrid t.grid).setChanged c := by
  unfold renderFrame at h
  split at h
  · cases h
  · rename_i u d hu
    obtain ⟨rfl, rfl⟩ := Prod.mk.inj (Except.ok.inj h)
    rw [sampleCells_frame _ _ _ _ _ hu]
    rfl

/-- Everything a transaction can do to the state: nothing (a read, a failure), a step, a reboot, a drawing, a store of
one byte or of a block, a frame, a load. -/
theorem transact_cases {op : HostOp} {s t : State} {r : HostResult} (h : transact op s = .next (t, r)) :
    (op ≠ .step ∧ op.draws = false ∧ (∀ x, op ≠ .reboot x) ∧ (∀ b x, op = .load b x → ∃ e, r = .failed e) ∧ t = s) ∨
    (op = .step ∧ step s = .next t ∧ r = .stepped (stepResult s)) ∨
    (∃ x, op = .reboot x ∧ t = reboot x s ∧ r = .done) ∨
    (op.draws = true ∧ t = s.setBb t.bb ∧ r = .done ∧ (s.bb.length = s.cfg.pixels → t.bb.length = s.cfg.pixels)) ∨
    (∃ a v, op = .writeByte a v ∧ s.valid a ∧ t = s.setMem (Memory.set s.mem a.toNat (byteOfInt v)) ∧ r = .done) ∨
    (∃ start bytes, (op = .writeBlock start bytes ∨ (op = .present ∧ start = s.cfg.vramStart ∧ bytes = s.bb)) ∧
      0 ≤ start ∧ start + bytes.length ≤ s.cfg.memSize ∧
      t = s.setMem (Memory.setBlock s.mem start.toNat bytes) ∧ r = .done) ∨
    (∃ c, op = .renderFrame ∧ renderFrame s = .ok (t, c) ∧ r = .rendered c) ∨
    (∃ bytes base, op = .load bytes base ∧ load bytes base s = .ok t ∧ r = .done) := by
  cases op with
  | step =>
    obtain ⟨u, hu⟩ : ∃ u, step s = .next u := by
      cases hs : step s with
      | next u => exact ⟨u, rfl⟩
      | fault f =>
        rw [transact, hs] at h
        cases h
      | refused f =>
        rw [transact, hs] at h
        cases h
    rw [transact, hu] at h
    obtain ⟨rfl, rfl⟩ := Prod.mk.inj (Host.Outcome.next.inj h)
    exact .inr (.inl ⟨rfl, hu, rfl⟩)
  | reboot x =>
    obtain ⟨rfl, rfl⟩ := Prod.mk.inj (Host.Outcome.next.inj h)
    exact .inr (.inr (.inl ⟨x, rfl, rfl, rfl⟩))
  | clear index =>
    obtain ⟨rfl, rfl⟩ := Prod.mk.inj (Host.Outcome.next.inj h)
    exact .inr (.inr (.inr (.inl ⟨rfl, rfl, rfl, fun _ => by simp [clear]⟩)))
  | setPixel x y index =>
    obtain ⟨rfl, rfl⟩ := Prod.mk.inj (Host.Outcome.next.inj h)
    exact .inr (.inr (.inr (.inl ⟨rfl, paint_frame _ _ _ _, rfl, fun hl => by simp [setPixel, hl]⟩)))
  | fillRect x y w h' index =>
    obtain ⟨rfl, rfl⟩ := Prod.mk.inj (Host.Outcome.next.inj h)
    exact .inr (.inr (.inr (.inl ⟨rfl, paintAll_frame _ _ _, rfl, fun hl => by simp [fillRect, hl]⟩)))
  | drawRect x y w h' index =>
    obtain ⟨rfl, rfl⟩ := Prod.mk.inj (Host.Outcome.next.inj h)
    exact .inr (.inr (.inr (.inl ⟨rfl, paintAll_frame _ _ _, rfl, fun hl => by simp [drawRect, hl]⟩)))
  | drawText x y text index =>
    obtain ⟨rfl, rfl⟩ := Prod.mk.inj (Host.Outcome.next.inj h)
    exact .inr (.inr (.inr (.inl ⟨rfl, paintAll_frame _ _ _, rfl, fun hl => by simp [drawText, hl]⟩)))
  | readByte a =>
    refine .inl ⟨by simp, rfl, by simp, by simp, ?_⟩
    simp only [transact] at h
    cases hr : readByte s a <;> rw [hr] at h <;> exact (Prod.mk.inj (Host.Outcome.next.inj h)).1.symm
  | readWord16 a =>
    refine .inl ⟨by simp, rfl, by simp, by simp, ?_⟩
    simp only [transact] at h
    cases hr : readWord16 s a <;> rw [hr] at h <;> exact (Prod.mk.inj (Host.Outcome.next.inj h)).1.symm
  | readGrid =>
    obtain ⟨rfl, rfl⟩ := Prod.mk.inj (Host.Outcome.next.inj h)
    exact .inl ⟨by simp, rfl, by simp, by simp, rfl⟩
  | observe =>
    obtain ⟨rfl, rfl⟩ := Prod.mk.inj (Host.Outcome.next.inj h)
    exact .inl ⟨by simp, rfl, by simp, by simp, rfl⟩
  | writeByte a v =>
    simp only [transact] at h
    cases hr : writeByte s a v with
    | error f =>
      rw [hr] at h
      exact .inl ⟨by simp, rfl, by simp, by simp, (Prod.mk.inj (Host.Outcome.next.inj h)).1.symm⟩
    | ok u =>
      rw [hr] at h
      obtain ⟨rfl, rfl⟩ := Prod.mk.inj (Host.Outcome.next.inj h)
      obtain ⟨hv, ht⟩ := storeByte_cases hr
      exact .inr (.inr (.inr (.inr (.inl ⟨a, v, rfl, hv, ht, rfl⟩))))
  | writeBlock start bytes =>
    simp only [transact] at h
    cases hr : writeBlock s start bytes with
    | error f =>
      rw [hr] at h
      exact .inl ⟨by simp, rfl, by simp, by simp, (Prod.mk.inj (Host.Outcome.next.inj h)).1.symm⟩
    | ok u =>
      rw [hr] at h
      obtain ⟨rfl, rfl⟩ := Prod.mk.inj (Host.Outcome.next.inj h)
      obtain ⟨h0, h1, ht⟩ := writeBlock_cases hr
      exact .inr (.inr (.inr (.inr (.inr (.inl ⟨start, bytes, .inl rfl, h0, h1, ht, rfl⟩)))))
  | present =>
    simp only [transact] at h
    cases hr : present s with
    | error f =>
      rw [hr] at h
      exact .inl ⟨by simp, rfl, by simp, by simp, (Prod.mk.inj (Host.Outcome.next.inj h)).1.symm⟩
    | ok u =>
      rw [hr] at h
      obtain ⟨rfl, rfl⟩ := Prod.mk.inj (Host.Outcome.next.inj h)
      obtain ⟨h0, h1, ht⟩ := writeBlock_cases hr
      exact .inr (.inr (.inr (.inr (.inr (.inl ⟨_, _, .inr ⟨rfl, rfl, rfl⟩, h0, h1, ht, rfl⟩)))))
  | renderFrame =>
    simp only [transact] at h
    cases hr : renderFrame s with
    | error f =>
      rw [hr] at h
      exact .inl ⟨by simp, rfl, by simp, by simp, (Prod.mk.inj (Host.Outcome.next.inj h)).1.symm⟩
    | ok u =>
      obtain ⟨u, c⟩ := u
      rw [hr] at h
      obtain ⟨rfl, rfl⟩ := Prod.mk.inj (Host.Outcome.next.inj h)
      exact .inr (.inr (.inr (.inr (.inr (.inr (.inl ⟨c, rfl, rfl, rfl⟩))))))
  | load bytes base =>
    simp only [transact] at h
    cases hr : load bytes base s with
    | error f =>
      rw [hr] at h
      obtain ⟨rfl, rfl⟩ := Prod.mk.inj (Host.Outcome.next.inj h)
      exact .inl ⟨by simp, rfl, by simp, fun _ _ _ => ⟨f, rfl⟩, rfl⟩
    | ok u =>
      rw [hr] at h
      obtain ⟨rfl, rfl⟩ := Prod.mk.inj (Host.Outcome.next.inj h)
      exact .inr (.inr (.inr (.inr (.inr (.inr (.inr ⟨bytes, base, rfl, hr, rfl⟩))))))

end Sys2Proof.Machine
end

