-- ==== Sys2Proof/Laws/PerInstr.lean ====
section
/-! SUPPORT. Statements made once per instruction (LAWS.json). `EncodedLength`: the encoding of an instruction has the
length its opcode fixes (R80, R90), begins with its `OPC` byte (R86), and is 1, 2 or 3 bytes long. -/

namespace Sys2Proof.Laws.EncodedLength

/-- The encoding begins with the instruction's opcode byte and has the instruction's length, 1 to 3. -/
def Statement (i : Instr) : Prop :=
  ∀ o : Opc, (encode o i).head? = some (o.byteOf i.mnemonic) ∧ (encode o i).length = i.length ∧
    1 ≤ i.length ∧ i.length ≤ 3

theorem nop : Statement .nop := fun _ => ⟨rfl, rfl, by decide, by decide⟩
theorem ldaImm (imm : Byte) : Statement (.ldaImm imm) := fun _ =>
  ⟨rfl, rfl, show 1 ≤ 2 by decide, show 2 ≤ 3 by decide⟩
theorem sta (addr : Addr) : Statement (.sta addr) := fun _ => ⟨rfl, rfl, show 1 ≤ 3 by decide, show 3 ≤ 3 by decide⟩
theorem ldaAbs (addr : Addr) : Statement (.ldaAbs addr) := fun _ =>
  ⟨rfl, rfl, show 1 ≤ 3 by decide, show 3 ≤ 3 by decide⟩
theorem add (imm : Byte) : Statement (.add imm) := fun _ => ⟨rfl, rfl, show 1 ≤ 2 by decide, show 2 ≤ 3 by decide⟩
theorem sub (imm : Byte) : Statement (.sub imm) := fun _ => ⟨rfl, rfl, show 1 ≤ 2 by decide, show 2 ≤ 3 by decide⟩
theorem jmp (addr : Addr) : Statement (.jmp addr) := fun _ => ⟨rfl, rfl, show 1 ≤ 3 by decide, show 3 ≤ 3 by decide⟩
theorem jz (addr : Addr) : Statement (.jz addr) := fun _ => ⟨rfl, rfl, show 1 ≤ 3 by decide, show 3 ≤ 3 by decide⟩
theorem halt : Statement .halt := fun _ => ⟨rfl, rfl, by decide, by decide⟩

end Sys2Proof.Laws.EncodedLength
end

