-- ==== Sys2Proof/Tests/Slice0.lean ====
section
/-! SUPPORT. The model's own tests. Expected results are those of spec/95_test_vectors.md (the vector is named) or are
written out from the encodings of spec/30_encoding.md; the second part shows, for each statement with hypotheses, a
state and operands that meet them. -/

namespace Sys2Proof.Tests

open Sys2Proof.Machine

/-! ## Small machines -/

/-- A grey ramp of the tests' own. -/
def ramp : List Colour := (List.range 256).map fun i => BitVec.ofNat 24 (i * 0x010101)

/-- A glyph of the tests' own: an edge on the left, a dot at the right of row 2. -/
def edge : Glyph :=
  #v[#v[true, false, false, false, false], #v[true, false, false, false, false], #v[true, false, false, false, true],
     #v[true, false, false, false, false], #v[true, false, false, false, false], #v[true, false, false, false, false],
     #v[true, false, false, false, false]]

/-- The space and `A`. -/
def font : List (CodePoint × Glyph) := [(0x20, blankGlyph), (0x41, edge)]

/-- Sixteen cells, the video region in the last eight. -/
def tiny : Config :=
  { memSize := 16, bootAddr := 0, vramStart := 8, width := 4, height := 2, opc := Opc.reference, palette := ramp,
    font := font }

/-- The vectors' memory size and video region. -/
def wide : Config := { tiny with memSize := 65536, vramStart := 0x0200 }

/-- The surface of the vectors of section 2.6. -/
def tall : Config := { wide with height := 3 }

/-- Another assignment of the opcode bytes. -/
def shuffled : Opc :=
  { nop := 0xEA, ldaImm := 0xA9, sta := 0x8D, ldaAbs := 0xAD, add := 0x69, sub := 0xE9, jmp := 0x4C, jz := 0xF0,
    halt := 0x00 }

/-- A running machine with the given program counter, accumulator and memory. -/
def machine (c : Config) (pc : Addr) (a : Byte) (mem : Memory) : State :=
  { cfg := c, pc := pc, a := a, halted := false, fault := none, mem := mem, bb := List.replicate c.pixels 0,
    snap := List.replicate c.pixels 0, grid := List.replicate c.pixels 0, changed := false, imageLen := 0 }

/-- What the tests look at in a next state. -/
def seen {α : Type} (f : State → α) : Host.Outcome State Fault Refusal → Option α
  | .next t => some (f t)
  | .fault _ => none
  | .refused _ => none

/-- The CPU's registers and the latch. -/
structure Cpu where
  pc     : Addr
  a      : Byte
  halted : Bool
  fault  : Option Fault
  deriving DecidableEq, Repr

/-- The CPU's registers and the latch of a state. -/
def cpu (s : State) : Cpu := ⟨s.pc, s.a, s.halted, s.fault⟩

/-- What `render_frame` writes, and memory, which it only reads (S5). -/
structure Frame where
  snap    : List Byte
  grid    : List Colour
  changed : Bool
  mem     : Memory
  deriving DecidableEq, Repr

/-- The frame of a state. -/
def frame (s : State) : Frame := ⟨s.snap, s.grid, s.changed, s.mem⟩

/-- What the host gets from an operation, and what the tests look at after it. -/
def reply {α : Type} (f : State → α) : Host.Outcome (State × HostResult) Fault Refusal → Option (α × HostResult)
  | .next (t, r) => some (f t, r)
  | .fault _ => none
  | .refused _ => none

/-- What the tests look at after a sequence of operations, with the last result. -/
def replies {α : Type} (f : State → α) : Host.Outcome (State × List HostResult) Fault Refusal →
    Option (α × Option HostResult)
  | .next (t, rs) => some (f t, rs.getLast?)
  | .fault _ => none
  | .refused _ => none

/-! ## WellFormed: ill-formed terms are refused -/

theorem test_opc_duplicate_refused : Opc.wf { Opc.reference with halt := 0x00 } = false := by decide
theorem test_opc_accepts_reference_and_shuffled : Opc.reference.wf = true ∧ shuffled.wf = true := by decide
theorem test_palette_short_refused : paletteWf (ramp.drop 1) = false := by decide +kernel
theorem test_palette_colour_in_ramp_refused : paletteWf (ramp.set 7 0x000102) = false := by decide +kernel
theorem test_palette_colour_in_chrome_accepted : paletteWf (ramp.set 6 0x000102) = true := by decide +kernel
theorem test_font_without_space_refused : fontWf [(0x41, edge)] = false := by decide
theorem test_font_painted_space_refused : fontWf [(0x20, edge)] = false := by decide
theorem test_fits_no_memory_refused : Config.fits { tiny with memSize := 0, vramStart := 0 } = false := by decide
theorem test_fits_no_width_refused : Config.fits { tiny with width := 0 } = false := by decide
theorem test_fits_no_height_refused : Config.fits { tiny with height := 0 } = false := by decide
theorem test_fits_region_past_memory_refused : Config.fits { tiny with vramStart := 9 } = false := by decide
theorem test_config_ill_formed_refused :
    Config.wf { tiny with opc := { Opc.reference with jz := 0x06 } } = false ∧
      Config.wf { tiny with palette := [] } = false ∧ Config.wf { tiny with font := [] } = false := by decide +kernel
theorem test_config_accepted : tiny.wf = true ∧ wide.wf = true ∧ tall.wf = true := by decide +kernel

/-! ## Decode: words written out from R81, R83 and the bytes of R85 (D1) -/

theorem test_decode_nop : decode Opc.reference [0b00000000, 0x77] = .instr .nop [0x77] := by decide
theorem test_decode_ldaImm : decode Opc.reference [0b00000001, 0b00101010] = .instr (.ldaImm 42) [] := by decide
theorem test_decode_sta : decode Opc.reference [0b00000010, 0b00000001, 0b00000000] = .instr (.sta 256) [] := by decide
theorem test_decode_ldaAbs : decode Opc.reference [0b00000011, 0b00000000, 0b00010000] = .instr (.ldaAbs 16) [] := by
  decide
theorem test_decode_add : decode Opc.reference [0b00000100, 0b11111111] = .instr (.add 255) [] := by decide
theorem test_decode_sub : decode Opc.reference [0b00000101, 0b00000001] = .instr (.sub 1) [] := by decide
theorem test_decode_jmp : decode Opc.reference [0b00000110, 0b00010010, 0b00110100] = .instr (.jmp 0x1234) [] := by
  decide
theorem test_decode_jz : decode Opc.reference [0b00000111, 0b00000000, 0b00001010] = .instr (.jz 10) [] := by decide
theorem test_decode_halt : decode Opc.reference [0b00001000] = .instr .halt [] := by decide
theorem test_decode_unassigned :
    decode Opc.reference [0x09] = .illegalOpcode 0x09 ∧ decode Opc.reference [0xFF, 0x00] = .illegalOpcode 0xFF := by
  decide
theorem test_decode_truncated :
    decode Opc.reference [] = .truncated ∧ decode Opc.reference [0x04] = .truncated ∧
      decode Opc.reference [0x06, 0x12] = .truncated := by decide
theorem test_decode_other_assignment :
    decode shuffled [0x4C, 0x12, 0x34] = .instr (.jmp 0x1234) [] ∧ decode shuffled [0x00] = .instr .halt [] ∧
      decode shuffled [0x08] = .illegalOpcode 0x08 := by decide
/-- R81's bit strings, first byte most significant: one of each format, written and read. -/
theorem test_bit_strings :
    Instr.bitString Opc.reference .halt = 0x08 ∧ Instr.bitString Opc.reference (.sub 0x2A) = 0x052A ∧
      Instr.bitString Opc.reference (.sta 0x1234) = 0x021234 ∧
      decodeBitString Opc.reference 1 0x08 = .instr .halt [] ∧
      decodeBitString Opc.reference 2 0x052A = .instr (.sub 0x2A) [] ∧
      decodeBitString Opc.reference 3 0x021234 = .instr (.sta 0x1234) [] := by decide
/-- The nine rows of spec/opcode_table.json, numbered as the host's interface numbers them: first byte in bits 7..0. -/
theorem test_decodeTableWord_rows :
    decodeTableWord 8 0x00 = some .nop ∧ decodeTableWord 16 0x2A01 = some (.ldaImm 0x2A) ∧
      decodeTableWord 24 0x341202 = some (.sta 0x1234) ∧ decodeTableWord 24 0x341203 = some (.ldaAbs 0x1234) ∧
      decodeTableWord 16 0x2A04 = some (.add 0x2A) ∧ decodeTableWord 16 0x2A05 = some (.sub 0x2A) ∧
      decodeTableWord 24 0x341206 = some (.jmp 0x1234) ∧ decodeTableWord 24 0x341207 = some (.jz 0x1234) ∧
      decodeTableWord 8 0x08 = some .halt ∧ decodeTableWord 8 0x09 = none := by decide
/-- W7: the image of the source's example program, and its written form. -/
theorem test_assemble_w7 :
    assemble Opc.reference [.ldaImm 0, .add 1, .jmp 2] = [0x01, 0x00, 0x04, 0x01, 0x06, 0x00, 0x02] := by decide
theorem test_written_w7 :
    String.ofList (writtenProgram [.ldaImm 0, .add 1, .jmp 2]) = "[LDA #0x00, ADD #0x01, JMP 0x0002]" := by decide
/-- An instruction placed at the reset state is the one the next step runs. -/
theorem test_withFetchWord_runs :
    seen cpu (step (State.reset.withFetchWord 16 0x2A01)) = some ⟨2, 0x2A, false, none⟩ ∧
      seen cpu (step (State.reset.withFetchWord 24 0x341206)) = some ⟨0x1234, 0, false, none⟩ ∧
      seen cpu (step (State.reset.withFetchWord 8 0x08)) = some ⟨1, 0, true, none⟩ := by decide

/-! ## Instructions, one step each -/

/-- F2 and C6. -/
theorem test_nop : seen cpu (step (machine wide 0xFFFF 5 [])) = some ⟨0, 5, false, none⟩ ∧
    seen cpu (step (machine wide 5 5 [])) = some ⟨6, 5, false, none⟩ := by decide
/-- D2. -/
theorem test_ldaImm : seen cpu (step (machine wide 0 0 [(0, 1), (1, 0xFF)])) = some ⟨2, 0xFF, false, none⟩ := by decide
/-- F3: the operand byte lies at address 0. -/
theorem test_ldaImm_wraps : seen cpu (step (machine wide 0xFFFF 0 [(0, 0x42), (0xFFFF, 1)])) =
    some ⟨1, 0x42, false, none⟩ := by decide
/-- D3. -/
theorem test_ldaAbs : seen cpu (step (machine wide 0 0 [(0, 3), (2, 0x10), (0x10, 0x2A)])) =
    some ⟨3, 0x2A, false, none⟩ := by decide
/-- D4. -/
theorem test_ldaAbs_faults : seen cpu (step (machine tiny 0 5 [(0, 3), (2, 0x20)])) =
    some ⟨3, 5, true, some (.addressOutOfRange 0x20)⟩ := by decide
/-- D5 and D7: the second step stores over its own low address byte. -/
theorem test_sta :
    seen (fun t => (cpu t, Memory.get t.mem 0x11)) (step (machine wide 0 0x29 [(0, 2), (2, 0x11)])) =
        some (⟨3, 0x29, false, none⟩, 0x29) ∧
      seen (fun t => (cpu t, t.mem)) (step (machine wide 0x10 5 [(0x10, 2), (0x12, 0x12)])) =
        some (⟨0x13, 5, false, none⟩, [(0x10, 2), (0x12, 5)]) := by decide
/-- D6. -/
theorem test_sta_faults :
    seen (fun t => (cpu t, t.mem)) (step (machine tiny 0 0x29 [(0, 2), (1, 0xFF), (2, 0xFF)])) =
      some (⟨3, 0x29, true, some (.addressOutOfRange 0xFFFF)⟩, [(0, 2), (1, 0xFF), (2, 0xFF)]) := by decide
/-- W3, A3 and A10. -/
theorem test_add : seen cpu (step (machine wide 0 0xFF [(0, 4), (1, 2)])) = some ⟨2, 1, false, none⟩ ∧
    seen cpu (exec (.add 0x80) (machine wide 2 0x80 [])) = some ⟨2, 0, false, none⟩ ∧
    seen cpu (exec (.add 0xFF) (machine wide 2 0xFF [])) = some ⟨2, 0xFE, false, none⟩ := by decide
/-- W4, A7 and A8. -/
theorem test_sub : seen cpu (step (machine wide 0 0 [(0, 5), (1, 1)])) = some ⟨2, 0xFF, false, none⟩ ∧
    seen cpu (exec (.sub 0xFF) (machine wide 2 0 [])) = some ⟨2, 1, false, none⟩ ∧
    seen cpu (exec (.sub 0x20) (machine wide 2 0x10 [])) = some ⟨2, 0xF0, false, none⟩ := by decide
/-- C1. -/
theorem test_jmp : seen cpu (step (machine wide 0 9 [(0, 6), (1, 0x12), (2, 0x34)])) =
    some ⟨0x1234, 9, false, none⟩ := by decide
/-- C8. -/
theorem test_jmp_outside : seen cpu (step (machine tiny 0 9 [(0, 6), (1, 0xFF), (2, 0xFF)])) =
      some ⟨0xFFFF, 9, false, none⟩ ∧
    seen cpu (step (machine tiny 0xFFFF 9 [])) = some ⟨0xFFFF, 9, true, some (.addressOutOfRange 0xFFFF)⟩ := by decide
/-- C2, C3 and C4. -/
theorem test_jz : seen cpu (step (machine wide 0 0 [(0, 7), (2, 9)])) = some ⟨9, 0, false, none⟩ ∧
    seen cpu (step (machine wide 0 1 [(0, 7), (2, 9)])) = some ⟨3, 1, false, none⟩ ∧
    seen cpu (step (machine wide 0 0x80 [(0, 7), (2, 9)])) = some ⟨3, 0x80, false, none⟩ := by decide
/-- F4. -/
theorem test_jz_straddles : seen cpu (step (machine wide 0xFFFE 1 [(0, 0x30), (0xFFFE, 7)])) =
    some ⟨1, 1, false, none⟩ := by decide
/-- C5. -/
theorem test_halt : seen cpu (step (machine wide 0 7 [(0, 8)])) = some ⟨1, 7, true, none⟩ := by decide
/-- F1. -/
theorem test_halted_step :
    seen cpu (step ((machine wide 0x10 5 [(0x10, 0xC3)]).setHalted true)) = some ⟨0x10, 5, true, none⟩ ∧
      stepResult ((machine wide 0x10 5 [(0x10, 0xC3)]).setHalted true) = .ok := by decide

/-! ## Faults of a step -/

/-- F5. -/
theorem test_illegal_opcode :
    seen (fun t => (cpu t, t.mem)) (step (machine wide 0x1234 5 [(0x1234, 0xC3)])) =
        some (⟨0x1235, 5, true, some (.illegalOpcode 0xC3 0x1234)⟩, [(0x1234, 0xC3)]) ∧
      stepResult (machine wide 0x1234 5 [(0x1234, 0xC3)]) = .fault (.illegalOpcode 0xC3 0x1234) := by decide
/-- F6. -/
theorem test_opcode_fetch_fault : seen cpu (step (machine tiny 0x10 5 [])) =
    some ⟨0x10, 5, true, some (.addressOutOfRange 16)⟩ := by decide
/-- F7, F8 and F9. -/
theorem test_operand_fetch_fault :
    seen cpu (step (machine tiny 0xF 5 [(0xF, 1)])) = some ⟨0x10, 5, true, some (.addressOutOfRange 16)⟩ ∧
      seen (fun t => (cpu t, t.mem)) (step (machine tiny 0xE 5 [(0xE, 2)])) =
        some (⟨0x10, 5, true, some (.addressOutOfRange 16)⟩, [(0xE, 2)]) ∧
      seen cpu (step (machine tiny 0xF 5 [(0xF, 2)])) = some ⟨0x10, 5, true, some (.addressOutOfRange 16)⟩ := by decide

/-! ## The memory controller -/

/-- M1, M2 and M3. -/
theorem test_write_byte_masks :
    reply State.mem (transact (.writeByte 0 0x41) (machine tiny 0 0 [])) = some ([(0, 0x41)], .done) ∧
      reply State.mem (transact (.writeByte 1 256) (machine tiny 0 0 [(1, 9)])) = some ([], .done) ∧
      reply State.mem (transact (.writeByte 1 (-1)) (machine tiny 0 0 [])) = some ([(1, 0xFF)], .done) := by
  decide
/-- M4 and M5. -/
theorem test_read_byte_bounds :
    reply cpu (transact (.readByte (-1)) (machine tiny 0 0 [])) =
        some (⟨0, 0, false, none⟩, .failed (.fault (.addressOutOfRange (-1)))) ∧
      reply cpu (transact (.readByte 16) (machine tiny 0 0 [])) =
        some (⟨0, 0, false, none⟩, .failed (.fault (.addressOutOfRange 16))) ∧
      reply cpu (transact (.readByte 15) (machine tiny 0 0 [(15, 7)])) = some (⟨0, 0, false, none⟩, .byte 7) := by decide
/-- M6 and M9. -/
theorem test_write_block :
    reply State.mem (transact (.writeBlock 14 [1, 2]) (machine tiny 0 0 [])) = some ([(14, 1), (15, 2)], .done) ∧
      reply State.mem (transact (.writeBlock 16 []) (machine tiny 0 0 [])) = some ([], .done) := by decide
/-- M7, M8 and M9. -/
theorem test_write_block_overflow :
    reply State.mem (transact (.writeBlock 15 [1, 2]) (machine tiny 0 0 [(15, 0x77)])) =
        some ([(15, 0x77)], .failed (.blockOverflow 15 2)) ∧
      reply State.mem (transact (.writeBlock (-1) [1]) (machine tiny 0 0 [])) =
        some ([], .failed (.blockOverflow (-1) 1)) ∧
      reply State.mem (transact (.writeBlock 17 []) (machine tiny 0 0 [])) =
        some ([], .failed (.blockOverflow 17 0)) := by decide
/-- M10, M11 and M12. -/
theorem test_read_word16 :
    reply cpu (transact (.readWord16 8) (machine tiny 0 0 [(8, 0x12), (9, 0x34)])) =
        some (⟨0, 0, false, none⟩, .word 0x1234) ∧
      reply cpu (transact (.readWord16 15) (machine tiny 0 0 [])) =
        some (⟨0, 0, false, none⟩, .failed (.fault (.addressOutOfRange 16))) ∧
      reply cpu (transact (.readWord16 (-1)) (machine tiny 0 0 [])) =
        some (⟨0, 0, false, none⟩, .failed (.fault (.addressOutOfRange (-1)))) := by decide
/-- The initial contents of memory (R38, D5), in canonical form. -/
theorem test_initial_memory : Memory.ofFn 4 (fun a => BitVec.ofNat 8 (a % 3)) = [(1, 1), (2, 2)] := by decide

/-! ## Reset and loader -/

/-- R1, R2, R3 and W8. -/
theorem test_reboot :
    cpu (reboot 0 ((machine wide 0xF 0x5A []).setHalted true)) = ⟨0, 0, false, none⟩ ∧
      (reboot 0x10005 (machine wide 0 0 [])).pc = 5 ∧ (reboot (-1) (machine wide 0 0 [])).pc = 0xFFFF ∧
      cpu (reboot 0x12345 (takeFault (.addressOutOfRange 1) (machine wide 1 0x5A []))) = ⟨0x2345, 0, false, none⟩ := by
  decide
/-- R4. -/
theorem test_load :
    reply (fun t => (cpu t, t.mem, t.imageLen))
        (transact (.load [0x01, 0x2A, 0x08] 0x0100) ((machine wide 9 9 []).setHalted true)) =
      some ((⟨0x0100, 0, false, none⟩, [(0x0100, 0x01), (0x0101, 0x2A), (0x0102, 0x08)], 3), .done) := by decide
/-- R5. -/
theorem test_load_overflow :
    reply (fun t => (cpu t, t.mem, t.imageLen))
        (transact (.load [1, 2] 0xFFFF) ((machine wide 5 0x11 []).setImageLen 3)) =
      some ((⟨5, 0x11, false, none⟩, [], 3), .failed (.blockOverflow 0xFFFF 2)) := by decide
/-- R6, and R245 at the top of the address space: the start is `MEM_SIZE mod 65536`. -/
theorem test_load_empty :
    reply cpu (transact (.load [] 65536) (machine wide 5 9 [])) = some (⟨0, 0, false, none⟩, .done) ∧
    replies (fun t => (cpu t, t.imageLen)) (runHost [.load [] 16, .step] (machine tiny 0 0 [])) =
      some ((⟨0x10, 0, true, some (.addressOutOfRange 16)⟩, 0), some (.stepped (.fault (.addressOutOfRange 16)))) := by
  decide

/-! ## The Video Surface -/

/-- V1. -/
theorem test_clear : (clear 2 (machine tall 0 0 [])).bb = List.replicate 12 2 := by decide
/-- V2, V3, V4 and V11. -/
theorem test_set_pixel :
    (setPixel (-1) 0 9 (machine tall 0 0 [])).bb = List.replicate 12 0 ∧
      (setPixel 3 2 9 (machine tall 0 0 [])).bb = [0, 0, 0, 0, 0, 0, 0, 0, 0, 0, 0, 9] ∧
      (setPixel 4 0 9 (machine tall 0 0 [])).bb = List.replicate 12 0 ∧
      (setPixel 0 0 257 (machine tall 0 0 [])).bb = [1, 0, 0, 0, 0, 0, 0, 0, 0, 0, 0, 0] := by decide
/-- V5, V6 and V7. -/
theorem test_fill_rect :
    (fillRect 1 1 2 1 5 (machine tall 0 0 [])).bb = [0, 0, 0, 0, 0, 5, 5, 0, 0, 0, 0, 0] ∧
      (fillRect 0 0 0 3 5 (machine tall 0 0 [])).bb = List.replicate 12 0 ∧
      (fillRect (-10) (-10) 100 100 1 (machine tall 0 0 [])).bb = List.replicate 12 1 := by decide
/-- V8, V9 and V10. -/
theorem test_draw_rect :
    (drawRect 0 0 4 3 1 (machine tall 0 0 [])).bb = [1, 1, 1, 1, 1, 0, 0, 1, 1, 1, 1, 1] ∧
      (drawRect (-1) 0 3 3 1 (machine tall 0 0 [])).bb = [1, 1, 0, 0, 0, 1, 0, 0, 1, 1, 0, 0] ∧
      (drawRect 1 1 1 1 3 (machine tall 0 0 [])).bb = [0, 0, 0, 0, 0, 3, 0, 0, 0, 0, 0, 0] := by decide
/-- V12, V13 and V14, with the glyph `edge` for `A`: `"a"` at (0, 0), `"AB"` at (2, 0), the empty text. -/
theorem test_draw_text :
    (drawText 0 0 [0x61] 4 (machine tall 0 0 [])).bb = (drawText 0 0 [0x41] 4 (machine tall 0 0 [])).bb ∧
      (drawText 2 0 [0x41, 0x42] 4 (machine tall 0 0 [])).bb = [0, 0, 4, 0, 0, 0, 4, 0, 0, 0, 4, 0] ∧
      (drawText (-4) 0 [0x41] 4 (machine tall 0 0 [])).bb = [0, 0, 0, 0, 0, 0, 0, 0, 4, 0, 0, 0] ∧
      (drawText 0 0 [] 4 (machine tall 0 0 [])).bb = List.replicate 12 0 := by decide
/-- W11: `'~'` is not in the font. -/
theorem test_draw_text_unmapped : (drawText 0 0 [0x7E] 5 (machine tall 0 0 [])).bb = List.replicate 12 0 := by decide
/-- V15. -/
theorem test_present :
    replies (fun t => (t.mem, t.bb)) (runHost [.drawRect 0 0 4 3 1, .present] (machine tall 0 0 [])) =
      some (([0, 1, 2, 3, 4, 7, 8, 9, 10, 11].map (fun k => (0x0200 + k, 1)),
        [1, 1, 1, 1, 1, 0, 0, 1, 1, 1, 1, 1]), some .done) := by decide

/-! ## The Display Sampler -/

/-- S1. -/
theorem test_render_nothing :
    reply (fun t => (t.grid, t.changed)) (transact .renderFrame (machine wide 0 0 [])) =
      some ((List.replicate 8 0, false), .rendered false) := by decide +kernel
/-- S2. -/
theorem test_render_one_cell :
    reply frame (transact .renderFrame (machine wide 0 0 [(0x0203, 7)])) =
      some (⟨[0, 0, 0, 7, 0, 0, 0, 0], [0, 0, 0, 0x070707, 0, 0, 0, 0], true, [(0x0203, 7)]⟩, .rendered true) := by
  decide +kernel
/-- W10. -/
theorem test_present_then_render :
    replies State.grid (runHost [.clear 3, .setPixel 0 0 7, .present, .renderFrame] (machine wide 0 0 [])) =
      some ([0x070707, 0x030303, 0x030303, 0x030303, 0x030303, 0x030303, 0x030303, 0x030303],
        some (.rendered true)) := by decide +kernel
/-- P6 (b), with the one step that stores: the tick overwrites the program's store (R250). -/
theorem test_tick_clobbers :
    replies frame (tick 1 (machine wide 0 7 [(0, 2), (1, 2), (2, 3)])) =
      some (⟨List.replicate 8 0, List.replicate 8 0, false, [(0, 2), (1, 2), (2, 3)]⟩, some (.rendered false)) := by
  decide +kernel
/-- The host's read of the grid (R194) and of the CPU's registers (R34). -/
theorem test_observe :
    reply cpu (transact .readGrid (machine wide 5 9 [])) =
        some (⟨5, 9, false, none⟩, .pixels (List.replicate 8 0) false) ∧
      reply cpu (transact .observe (machine wide 5 9 [])) =
        some (⟨5, 9, false, none⟩, .observed ⟨5, 9, false, none, 0, false, List.replicate 8 0⟩) := by decide

/-! ## Witnesses: for each statement with hypotheses, operands that meet them, one per clause and boundary -/

/-- A machine in the middle of its work: everything differs from construction, and `SNAP` and `GRID` agree. -/
def busy : State :=
  { cfg := tiny, pc := 0, a := 0x29, halted := false, fault := none, mem := [(0, 2), (2, 15), (8, 7)],
    bb := [1, 2, 3, 4, 5, 6, 7, 8], snap := [9, 0, 0, 0, 0, 0, 0, 9],
    grid := [0x090909, 0, 0, 0, 0, 0, 0, 0x090909], changed := true, imageLen := 3 }

theorem witness_DecodeInvertsEncode : Opc.reference.wf = true ∧ shuffled.wf = true := by decide
theorem witness_EncodeInvertsDecode : decode shuffled [0xAD, 0xFF, 0xFF, 0x01] = .instr (.ldaAbs 0xFFFF) [0x01] := by
  decide
/-- The opcode byte of a mnemonic, and one that no mnemonic has. -/
theorem witness_OpcodeByteDecodesToItsMnemonic :
    Opc.wf shuffled = true ∧ decodeOpcode shuffled 0xF0 = .known .jz ∧ decodeOpcode shuffled 0x01 = .unknown 0x01 := by
  decide
/-- A mnemonic of each format. -/
theorem witness_OperandBytesAreAssembledHighByteFirst :
    Opc.wf shuffled = true ∧ Mnemonic.form .sta = .absolute .sta ∧ Mnemonic.form .sub = .immediate .sub ∧
      Mnemonic.form .halt = .implied .halt := ⟨by decide, rfl, rfl, rfl⟩
/-- An instruction whose last byte is the last cell of memory. -/
theorem witness_StepRunsTheDecodedInstruction :
    (machine tiny 14 0 [(14, 4), (15, 2)]).halted = false ∧
      (∀ k, k < Instr.length (.add 2) → (machine tiny 14 0 [(14, 4), (15, 2)]).fetchAddress k < 16) ∧
      decode Opc.reference (bytesAtPc (machine tiny 14 0 [(14, 4), (15, 2)])) = .instr (.add 2) [0] := by decide
theorem witness_HaltedStepIsANoOp : (State.setHalted busy true).halted = true := by decide
theorem witness_IllegalOpcodeIsReportedWithItsAddress :
    stepResult (machine tiny 15 5 [(15, 0xC3)]) = .fault (.illegalOpcode 0xC3 15) := by decide
/-- The four places: the opcode fetch, the first and the second operand byte, and the data access of both forms. -/
theorem witness_AddressFaultIsReportedInItsFourPlaces :
    stepResult (machine tiny 16 5 []) = .fault (.addressOutOfRange 16) ∧
      stepResult (machine tiny 15 5 [(15, 6)]) = .fault (.addressOutOfRange 16) ∧
      stepResult (machine tiny 14 5 [(14, 6)]) = .fault (.addressOutOfRange 16) ∧
      stepResult (machine tiny 13 5 [(13, 3), (15, 16)]) = .fault (.addressOutOfRange 16) ∧
      stepResult (machine tiny 13 5 [(13, 2), (15, 16)]) = .fault (.addressOutOfRange 16) := by decide
theorem witness_FaultingStepRecordsHaltsAndIsPrecise :
    stepResult (machine tiny 13 5 [(13, 2), (15, 16)]) = .fault (.addressOutOfRange 16) := by decide
/-- A running CPU that halts by `HALT`, one that halts by a fault, one that goes on. -/
theorem witness_RunningCpuHaltsOnlyByHaltOrFault :
    (machine tiny 15 5 [(15, 8)]).halted = false ∧
      fetchInstr (machine tiny 15 5 [(15, 8)]) = .value .halt (machine tiny 16 5 [(15, 8)]) ∧
      stepResult (machine tiny 16 5 []) = .fault (.addressOutOfRange 16) ∧
      seen cpu (step (machine tiny 15 5 [])) = some ⟨16, 5, false, none⟩ := ⟨by decide, by rfl, by decide, by decide⟩
/-- Two machines that differ in everything a step does not read. -/
theorem witness_StepReadsOnlyTheCpuAndMemory :
    let u : State := { busy with cfg := { tiny with vramStart := 0, font := [] }, fault := some (.addressOutOfRange 1),
                                 bb := [], snap := [], grid := [], changed := false, imageLen := 0 }
    busy.pc = u.pc ∧ busy.a = u.a ∧ busy.halted = u.halted ∧ busy.mem = u.mem ∧
      busy.cfg.memSize = u.cfg.memSize ∧ busy.cfg.opc = u.cfg.opc ∧ busy.fault ≠ u.fault := by decide
/-- A step that stores, and one that does not. -/
theorem witness_StepWritesMemoryOnlyByStore :
    fetchInstr busy = .value (.sta 15) (busy.setPc 3) ∧
      fetchInstr (busy.setPc 1) = .value .nop (busy.setPc 2) := ⟨rfl, rfl⟩
theorem witness_WrittenByteIsFetchedNext :
    Memory.wf (machine tiny 15 0 [(15, 8)]).mem = true ∧ (machine tiny 15 0 [(15, 8)]).pc.toNat < 16 := by decide

theorem witness_NopHasNoEffect : (machine tiny 15 5 []).IsAbout .nop := by decide
theorem witness_LoadImmediateWritesA : (machine tiny 14 5 [(14, 1), (15, 0xFF)]).IsAbout (.ldaImm 0xFF) := by decide
theorem witness_LoadAbsoluteReadsTheCell :
    (machine tiny 13 5 [(13, 3), (15, 15)]).IsAbout (.ldaAbs 15) ∧ (15 : Addr).toNat < tiny.memSize := by decide
theorem witness_StoreAbsoluteWritesTheCell :
    Memory.wf (machine tiny 13 5 [(13, 2), (15, 15)]).mem = true ∧
      (machine tiny 13 5 [(13, 2), (15, 15)]).IsAbout (.sta 15) ∧ (15 : Addr).toNat < tiny.memSize := by decide
theorem witness_AbsoluteAccessOutsideMemoryFaults : tiny.memSize ≤ (16 : Addr).toNat := by decide
theorem witness_AddImmediateWrapsModulo256 : (machine tiny 14 0xFF [(14, 4), (15, 2)]).IsAbout (.add 2) := by decide
theorem witness_SubImmediateWrapsModulo256 : (machine tiny 14 0 [(14, 5), (15, 1)]).IsAbout (.sub 1) := by decide
theorem witness_JumpWritesPc : (machine tiny 13 5 [(13, 6), (14, 0xFF), (15, 0xFF)]).IsAbout (.jmp 0xFFFF) := by decide
/-- Taken, not taken, and a second and a third byte outside memory. -/
theorem witness_JumpIfZeroTestsA :
    (machine tiny 13 0 [(13, 7), (15, 9)]).IsAbout (.jz 9) ∧
      (machine tiny 13 0x80 [(13, 7), (15, 9)]).IsAbout (.jz 9) ∧
      decodeOpcode tiny.opc (Memory.get [(14, 7), (15, 7)] 14) = .known .jz ∧
      decodeOpcode tiny.opc (Memory.get [(14, 7), (15, 7)] 15) = .known .jz ∧
      (∀ j, j < 2 → (machine tiny 14 0x80 [(14, 7), (15, 7)]).fetchAddress j < 16) ∧
      16 ≤ (machine tiny 14 0x80 [(14, 7), (15, 7)]).fetchAddress 2 ∧
      (machine tiny 15 0x80 [(14, 7), (15, 7)]).fetchAddress 0 < 16 ∧
      16 ≤ (machine tiny 15 0x80 [(14, 7), (15, 7)]).fetchAddress 1 := by decide
theorem witness_JumpOutsideMemoryFaultsAtTheNextFetch :
    (machine tiny 3 0 []).halted = false ∧ (machine tiny 3 0 []).a = 0 ∧ tiny.memSize ≤ (16 : Addr).toNat := by decide
theorem witness_HaltSetsHalted : (machine tiny 15 7 [(15, 8)]).IsAbout .halt := by decide

/-- Both ends of memory, and the addresses next to them. -/
theorem witness_ReadByteChecksBounds :
    ((0 : Int) ≤ 0 ∧ (0 : Int) < tiny.memSize) ∧ ((0 : Int) ≤ 15 ∧ (15 : Int) < tiny.memSize) ∧
      (-1 : Int) < 0 ∧ (tiny.memSize : Int) ≤ 16 := by decide
theorem witness_WriteByteThenReadByte :
    Memory.wf busy.mem = true ∧ ((0 : Int) ≤ 15 ∧ (15 : Int) < busy.cfg.memSize) ∧ (-1 : Int) < 0 ∧
      (busy.cfg.memSize : Int) ≤ 16 := by decide
/-- A block that ends at the end of memory, the empty block there, one byte too many on either side. -/
theorem witness_WriteBlockIsAllOrNothing :
    Memory.wf busy.mem = true ∧
      ((0 : Int) ≤ 14 ∧ (14 : Int) + ([1, 2] : List Byte).length ≤ busy.cfg.memSize) ∧
      ((0 : Int) ≤ 16 ∧ (16 : Int) + ([] : List Byte).length ≤ busy.cfg.memSize) ∧ (-1 : Int) < 0 ∧
      (15 : Int) + ([1, 2] : List Byte).length > busy.cfg.memSize := by decide
theorem witness_ReadWord16IsBigEndian :
    ((0 : Int) ≤ 14 ∧ (14 : Int) + 1 < tiny.memSize) ∧ ((0 : Int) ≤ 15 ∧ (15 : Int) + 1 = tiny.memSize) ∧
      (-1 : Int) < 0 ∧ (tiny.memSize : Int) ≤ 16 := by decide

/-- A region that ends at the end of memory, and one that ends past it. -/
theorem witness_ConstructionGivesTheTableValues :
    (1 ≤ tiny.memSize ∧ 1 ≤ tiny.width ∧ 1 ≤ tiny.height ∧ tiny.vramStart + tiny.width * tiny.height ≤ tiny.memSize) ∧
      ¬(1 ≤ 16 ∧ 1 ≤ 4 ∧ 1 ≤ 2 ∧ 9 + 4 * 2 ≤ 16) := by decide
theorem witness_LoadCopiesThenReboots :
    Memory.wf busy.mem = true ∧
      ((0 : Int) ≤ 13 ∧ (13 : Int) + ([1, 42, 8] : List Byte).length ≤ busy.cfg.memSize) ∧ (-1 : Int) < 0 ∧
      (14 : Int) + ([1, 42, 8] : List Byte).length > busy.cfg.memSize := by decide
theorem witness_LoadStartsInMemoryUnlessEmpty :
    ([8] : List Byte) ≠ [] ∧
      load [8] 15 (machine tiny 3 5 []) = .ok { machine tiny 15 0 [(15, 8)] with imageLen := 1 } ∧
      (machine tiny 3 5 []).cfg.memSize < 65536 ∧ ¬(machine wide 3 5 []).cfg.memSize < 65536 :=
  ⟨by decide, rfl, by decide⟩

/-- The last cell of the surface, and cells outside it. -/
theorem witness_SetPixelSetsOneCell :
    busy.bb.length = busy.cfg.pixels ∧ inSurface busy.cfg 0 0 ∧ inSurface busy.cfg 3 1 ∧ ¬inSurface busy.cfg 4 1 ∧
      ¬inSurface busy.cfg 3 2 ∧ ¬inSurface busy.cfg (-1) 0 := by decide
theorem witness_FillRectCoversTheClippedRectangle :
    busy.bb.length = busy.cfg.pixels ∧ inSurface busy.cfg 3 1 ∧
      ((-1 : Int) ≤ 3 ∧ (3 : Int) < -1 + 9 ∧ (1 : Int) ≤ 1 ∧ (1 : Int) < 1 + 1) := by decide
/-- A cell of the border, and one inside it. -/
theorem witness_DrawRectPaintsTheUnclippedBorder :
    busy.bb.length = busy.cfg.pixels ∧ inSurface busy.cfg 0 0 ∧ inSurface busy.cfg 0 1 ∧
      ((drawRect (-1) 0 3 3 1 busy).bb[cellIndex busy.cfg 0 0]? = some 1) ∧
      ((drawRect (-1) 0 3 3 1 busy).bb[cellIndex busy.cfg 0 1]? = some 5) := by decide
/-- A cell under a 1 bit of the second glyph; and a text that paints nothing. -/
theorem witness_DrawTextPaintsTheGlyphBits :
    busy.bb.length = busy.cfg.pixels ∧ inSurface busy.cfg 2 0 ∧
      (glyph busy.cfg 0x61)[(0 : Fin 7)][(0 : Fin 5)] = true ∧ (2 : Int) = -4 + 6 * 1 + 0 ∧
      (∀ (row : Fin 7) (col : Fin 5), (glyph busy.cfg 0x7E)[row][col] ≠ true) := by decide
/-- The ends of the folded range, a character the font maps, one it does not, and the space it falls back to. -/
theorem witness_GlyphLookupFoldsCaseAndFallsBackToSpace :
    tiny.font.lookup 0x41 = some edge ∧ tiny.font.lookup 0x5A = none ∧ tiny.font.lookup 0x20 = some blankGlyph ∧
      (0x61 ≤ (0x61 : CodePoint).val ∧ (0x61 : CodePoint).val ≤ 0x7A) ∧
      (0x61 ≤ (0x7A : CodePoint).val ∧ (0x7A : CodePoint).val ≤ 0x7A) ∧ fontWf busy.cfg.font = true ∧
      busy.cfg.font.lookup (foldCase 0x7B) = none := by decide
theorem witness_OnlyDrawingWritesTheBackBuffer :
    HostOp.draws (.drawText 0 0 [0x41] 1) = true ∧ HostOp.draws (.writeByte 8 1) = false ∧
      HostOp.draws .step = false := by decide
/-- Addresses on both sides of the video region exist in `wide`. -/
theorem witness_PresentCopiesTheBackBuffer :
    busy.cfg.fits = true ∧ Memory.wf busy.mem = true ∧ busy.bb.length = busy.cfg.pixels ∧
      7 < busy.cfg.vramStart ∧ wide.vramStart + wide.pixels ≤ 0x0208 := by decide
theorem busy_palette : paletteWf busy.cfg.palette = true := by decide +kernel
/-- The first cell of the region differs from the snapshot, the second does not; `busy_palette`: the palette is legal. -/
theorem witness_RenderFrameDiffsTheVideoRegion :
    paletteWf busy.cfg.palette = true ∧
    busy.cfg.fits = true ∧ busy.snap.length = busy.cfg.pixels ∧ busy.grid.length = busy.cfg.pixels ∧
      busy.snap[0]? ≠ some (Memory.get busy.mem (busy.cfg.vramStart + 0)) ∧
      busy.snap[1]? = some (Memory.get busy.mem (busy.cfg.vramStart + 1)) := ⟨busy_palette, by decide⟩

theorem busy_inv : busy.Inv := by decide +kernel
theorem witness_SecondFrameReportsNoChange : busy.Inv := busy_inv
theorem witness_PresentThenRenderShowsTheBackBuffer : busy.Inv := busy_inv
theorem witness_TickShowsTheBackBuffer : busy.Inv := busy_inv
theorem witness_DevicesNeverFault :
    busy.Inv ∧ HostOp.ofDevice .present = true ∧ HostOp.ofDevice .renderFrame = true ∧
      HostOp.ofDevice (.fillRect (-9) 0 99 9 1) = true := ⟨busy_inv, by decide⟩
theorem witness_OnlyRenderFrameWritesTheGrid :
    busy.Inv ∧ HostOp.load [1] 0 ≠ .renderFrame ∧ HostOp.present ≠ .renderFrame := ⟨busy_inv, by decide⟩

/-- A successful `load`, and a `render_frame` that finds a change. -/
theorem witness_ImageLengthAndChangedHaveOneWriterEach :
    reply State.imageLen (transact (.load [1, 2] 14) busy) = some (2, .done) ∧
      reply State.changed (transact .renderFrame busy) = some (true, .rendered true) := by decide +kernel
theorem witness_FailedHostOperationChangesNothing :
    transact (.load [1, 2] 15) busy = .next (busy, .failed (.blockOverflow 15 2)) ∧
      transact (.readWord16 15) busy = .next (busy, .failed (.fault (.addressOutOfRange 16))) := ⟨rfl, rfl⟩
theorem witness_HaltedIsLeftOnlyByReboot :
    (busy.setHalted true).halted = true ∧ HostOp.reboots .step = false ∧ HostOp.reboots .renderFrame = false := by
  decide
/-- A faulting step, and a `load` that clears the latch. -/
theorem witness_OnlyFaultsAndRebootWriteTheLatch :
    stepResult (busy.setPc 16) = .fault (.addressOutOfRange 16) ∧ HostOp.reboots (.load [] 16) = true ∧
      reply State.fault (transact (.load [] 16) (takeFault (.addressOutOfRange 16) busy)) = some (none, .done) := by
  decide
/-- A step that stores, and a step that faults. -/
theorem witness_StepKeepsTheInvariant :
    busy.Inv ∧ step busy = .next ((busy.setPc 3).setMem [(0, 2), (2, 15), (8, 7), (15, 0x29)]) ∧
      ({ busy with pc := 16 } : State).Inv ∧
      step { busy with pc := 16 } = .next (takeFault (.addressOutOfRange 16) { busy with pc := 16 }) :=
  ⟨busy_inv, rfl, by decide +kernel, rfl⟩
theorem witness_HostOperationsKeepTheInvariant :
    busy.Inv ∧ transact (.clear 257) busy = .next (busy.setBb (List.replicate 8 1), .done) := ⟨busy_inv, rfl⟩
theorem witness_InvariantHoldsFromConstructionOnwards : tiny.wf = true := by decide +kernel

end Sys2Proof.Tests
end

section
/-! The step and the host's operations: the frame of the configuration and of the devices, and that every operation
answers a next state (R35, R111). -/

namespace Sys2Proof.Machine

/-- `t` agrees with `s` on the configuration and on all that belongs to the Video Surface, the Display Sampler and the
loader (R28, R29, R31-R33, R35). -/
def State.SameDevices (s t : State) : Prop :=
  t.cfg = s.cfg ∧ t.bb = s.bb ∧ t.snap = s.snap ∧ t.grid = s.grid ∧ t.changed = s.changed ∧ t.imageLen = s.imageLen

theorem State.SameDevices.refl (s : State) : s.SameDevices s := ⟨rfl, rfl, rfl, rfl, rfl, rfl⟩

/-- No instruction writes the configuration or a device: each writes `PC`, `A`, memory, `HALTED` or the latch. -/
theorem exec_sameDevices {i : Instr} {s t : State} (h : exec i s = .next t) : s.SameDevices t := by
  obtain ⟨-, e⟩ | ⟨_, -, e⟩ | ⟨_, -, -, e⟩ | ⟨_, -, -, e⟩ | ⟨_, -, -, e⟩ | ⟨_, -, e⟩ | ⟨_, -, e⟩ | ⟨_, -, e⟩ |
    ⟨_, -, -, e⟩ | ⟨_, -, -, e⟩ | ⟨-, e⟩ := exec_cases i s <;>
  · rw [e] at h
    obtain rfl := Host.Outcome.next.inj h
    exact State.SameDevices.refl s

/-- No step writes the configuration or a device. -/
theorem step_sameDevices {s t : State} (h : step s = .next t) : s.SameDevices t := by
  obtain ⟨-, rfl⟩ | ⟨-, f, u, hf, rfl⟩ | ⟨-, i, u, hf, he⟩ := step_cases h
  · exact State.SameDevices.refl _
  · rw [fetchInstr_raised_frame hf]
    exact State.SameDevices.refl s
  · rw [fetchInstr_value_frame hf] at he
    have hu : (s.setPc u.pc).SameDevices t := exec_sameDevices he
    exact hu

/-- Every step answers a next state: a fault is taken, not answered (R108, R111). -/
theorem step_next (s : State) : ∃ t, step s = .next t := by
  cases hh : s.halted with
  | true => exact ⟨s, step_of_halted s hh⟩
  | false =>
    cases hf : fetchInstr s with
    | raised f u => exact ⟨_, step_of_raised hh hf⟩
    | value i u =>
      obtain ⟨t, ht⟩ := exec_next i u
      exact ⟨t, (step_of_value hh hf).trans ht⟩

/-- Every host operation is answered. -/
theorem transact_next (op : HostOp) (s : State) : ∃ t r, transact op s = .next (t, r) := by
  cases op with
  | step =>
    obtain ⟨t, ht⟩ := step_next s
    exact ⟨t, .stepped (stepResult s), by rw [transact, ht]; rfl⟩
  | _ => exact ⟨_, _, rfl⟩

/-- No host operation writes the configuration (R35). -/
theorem transact_cfg {op : HostOp} {s t : State} {r : HostResult} (h : transact op s = .next (t, r)) :
    t.cfg = s.cfg := by
  obtain ⟨-, -, -, -, rfl⟩ | ⟨-, hstep, -⟩ | ⟨x, -, rfl, -⟩ | ⟨-, hdraw, -⟩ | ⟨a, v, -, -, rfl, -⟩ |
    ⟨start, bytes, -, -, -, rfl, -⟩ | ⟨c, -, hframe, -⟩ | ⟨bytes, base, -, hload, -⟩ := transact_cases h
  · rfl
  · exact (step_sameDevices hstep).1
  · rfl
  · rw [hdraw, State.setBb_cfg]
  · rfl
  · rfl
  · rw [renderFrame_frame hframe, State.setChanged_cfg, State.setGrid_cfg, State.setSnap_cfg]
  · obtain ⟨-, -, rfl⟩ := load_cases hload
    rfl

/-- Settles O14: every step answers a next state, and its frame is `step_sameDevices`. -/
theorem stepLeavesTheDevicesAlone : Obligations.StepLeavesTheDevicesAlone := by
  intro s
  obtain ⟨t, ht⟩ := step_next s
  exact ⟨t, ht, step_sameDevices ht⟩

/-- Settles O52: every operation is answered, and its frame is `transact_cfg`. -/
theorem noOperationWritesTheConfiguration : Obligations.NoOperationWritesTheConfiguration := by
  intro op s
  obtain ⟨t, r, h⟩ := transact_next op s
  exact ⟨t, r, h, transact_cfg h⟩

end Sys2Proof.Machine
end

section
/-! The invariant (R39): one rule per update of the state, then the operations built from them. -/

namespace Sys2Proof.Machine

/-! ## Updates of the state -/

section Updates

variable {s : State} (h : s.Inv)
include h

/-- The invariant does not speak of `PC`. -/
theorem State.Inv.setPc (v : Addr) : (s.setPc v).Inv := h

/-- The invariant does not speak of `A`. -/
theorem State.Inv.setA (v : Byte) : (s.setA v).Inv := h

/-- The invariant does not speak of `IMAGE_LEN`. -/
theorem State.Inv.setImageLen (v : Nat) : (s.setImageLen v).Inv := h

/-- The invariant does not speak of `CHANGED`. -/
theorem State.Inv.setChanged (v : Bool) : (s.setChanged v).Inv := h

theorem State.Inv.halt : (s.setHalted true).Inv := by
  obtain ⟨hcfg, hwf, hbelow, hbb, hsnap, hgrid, -⟩ := h
  exact ⟨hcfg, hwf, hbelow, hbb, hsnap, hgrid, fun _ => rfl⟩

/-- A fault is taken by halting, so it is recorded only while halted (R108, D7). -/
theorem State.Inv.takeFault (f : Fault) : (takeFault f s).Inv := by
  obtain ⟨hcfg, hwf, hbelow, hbb, hsnap, hgrid, -⟩ := h
  exact ⟨hcfg, hwf, hbelow, hbb, hsnap, hgrid, fun _ => rfl⟩

/-- A reboot runs the CPU again with the latch cleared (R241). -/
theorem State.Inv.reboot (x : Int) : (reboot x s).Inv := by
  obtain ⟨hcfg, hwf, hbelow, hbb, hsnap, hgrid, -⟩ := h
  exact ⟨hcfg, hwf, hbelow, hbb, hsnap, hgrid, fun hf => absurd rfl hf⟩

theorem State.Inv.setBb {v : List Byte} (hv : v.length = s.cfg.pixels) : (s.setBb v).Inv := by
  obtain ⟨hcfg, hwf, hbelow, -, hsnap, hgrid, hlatch⟩ := h
  exact ⟨hcfg, hwf, hbelow, hv, hsnap, hgrid, hlatch⟩

theorem State.Inv.setMem {m : Memory} (hm : Memory.wf m = true) (hlt : ∀ c ∈ m, c.1 < s.cfg.memSize) :
    (s.setMem m).Inv := by
  obtain ⟨hcfg, -, -, hbb, hsnap, hgrid, hlatch⟩ := h
  exact ⟨hcfg, hm, hlt, hbb, hsnap, hgrid, hlatch⟩

/-- A store inside Memory keeps the canonical form and adds no cell past `MEM_SIZE`. -/
theorem State.Inv.setMem_set (a : Nat) (ha : a < s.cfg.memSize) (b : Byte) :
    (s.setMem (Memory.set s.mem a b)).Inv := by
  have ⟨_, hwf, hbelow, _⟩ := h
  refine h.setMem (Memory.wf_set s.mem a b hwf) fun c hc => ?_
  obtain rfl | hc := Memory.mem_set s.mem a b c hc
  · exact ha
  · exact hbelow c hc

/-- A block store inside Memory keeps the canonical form and adds no cell past `MEM_SIZE`. -/
theorem State.Inv.setMem_setBlock (a : Nat) (bs : List Byte) (ha : a + bs.length ≤ s.cfg.memSize) :
    (s.setMem (Memory.setBlock s.mem a bs)).Inv := by
  have ⟨_, hwf, hbelow, _⟩ := h
  refine h.setMem (Memory.wf_setBlock bs s.mem a hwf) fun c hc => ?_
  obtain hc | hc := Memory.mem_setBlock bs s.mem a c hc
  · omega
  · exact hbelow c hc

/-- Writing a sample to the snapshot and its colour to the grid keeps `GRID[i] = PALETTE[SNAP[i]]` (R39, R192). -/
theorem State.Inv.setSample (i : Nat) (v : Byte) :
    ((s.setSnap (s.snap.set i v)).setGrid (s.grid.set i (paletteAt s.cfg v))).Inv := by
  obtain ⟨hcfg, hwf, hbelow, hbb, hsnap, hgrid, hlatch⟩ := h
  refine ⟨hcfg, hwf, hbelow, hbb, List.length_set.trans hsnap, ?_, hlatch⟩
  show s.grid.set i (paletteAt s.cfg v) = (s.snap.set i v).map (paletteAt s.cfg)
  rw [hgrid, List.map_set]

end Updates

/-! ## The step -/

/-- Every instruction keeps the invariant: what writes more than `PC` or `A` is a store inside Memory, a fault of an
absolute access, or `HALT`. -/
theorem exec_keeps_inv {i : Instr} {s t : State} (hs : s.Inv) (h : exec i s = .next t) : t.Inv := by
  obtain ⟨-, e⟩ | ⟨imm, -, e⟩ | ⟨addr, -, -, e⟩ | ⟨addr, -, hin, e⟩ | ⟨addr, -, -, e⟩ | ⟨imm, -, e⟩ | ⟨imm, -, e⟩ |
    ⟨addr, -, e⟩ | ⟨addr, -, -, e⟩ | ⟨addr, -, -, e⟩ | ⟨-, e⟩ := exec_cases i s <;>
  rw [e] at h <;> obtain rfl := Host.Outcome.next.inj h
  · exact hs
  · exact hs.setA _
  · exact hs.setA _
  · exact hs.setMem_set _ hin _
  · exact hs.takeFault _
  · exact hs.setA _
  · exact hs.setA _
  · exact hs.setPc _
  · exact hs.setPc _
  · exact hs
  · exact hs.halt

/-- Every step keeps the invariant: the fetch moves `PC` only, and then a fault is taken or an instruction runs. -/
theorem step_keeps_inv {s t : State} (hs : s.Inv) (h : step s = .next t) : t.Inv := by
  obtain ⟨-, rfl⟩ | ⟨-, f, u, hf, rfl⟩ | ⟨-, i, u, hf, he⟩ := step_cases h
  · exact hs
  · rw [fetchInstr_raised_frame hf]
    exact (hs.setPc _).takeFault f
  · rw [fetchInstr_value_frame hf] at he
    exact exec_keeps_inv (hs.setPc _) he

/-- Settles O58: `step_keeps_inv`, from the three things a step can do. -/
theorem stepKeepsTheInvariant : Obligations.StepKeepsTheInvariant := fun _ _ => step_keeps_inv

/-! ## The frame -/

/-- What sampling one cell can do: nothing, or write one sample and its colour (R192). -/
theorem sampleCell_cases {i : Nat} {s t : State} {d : Bool} (h : sampleCell i s = .ok (t, d)) :
    t = s ∨ ∃ v, t = (s.setSnap (s.snap.set i v)).setGrid (s.grid.set i (paletteAt s.cfg v)) := by
  unfold sampleCell at h
  split at h
  · cases h
  · rename_i v _
    split at h <;> obtain ⟨rfl, -⟩ := Prod.mk.inj (Except.ok.inj h)
    · exact .inl rfl
    · exact .inr ⟨v, rfl⟩

/-- A scan keeps the invariant. -/
theorem sampleCells_keeps_inv (is : List Nat) {s t : State} {c d : Bool} (hs : s.Inv)
    (h : sampleCells is s c = .ok (t, d)) : t.Inv := by
  induction is generalizing s c with
  | nil =>
    obtain ⟨rfl, -⟩ := Prod.mk.inj (Except.ok.inj h)
    exact hs
  | cons i is ih =>
    rw [sampleCells] at h
    split at h
    · cases h
    · rename_i u e hu
      refine ih ?_ h
      obtain rfl | ⟨v, rfl⟩ := sampleCell_cases hu
      · exact hs
      · exact hs.setSample i v

/-- `render_frame` keeps the invariant. -/
theorem renderFrame_keeps_inv {s t : State} {c : Bool} (hs : s.Inv) (h : renderFrame s = .ok (t, c)) : t.Inv := by
  unfold renderFrame at h
  split at h
  · cases h
  · rename_i u d hu
    obtain ⟨rfl, -⟩ := Prod.mk.inj (Except.ok.inj h)
    exact (sampleCells_keeps_inv _ hs hu).setChanged d

/-! ## The host's operations -/

/-- Every host operation keeps the invariant: each kind of transaction by the rule of the update it makes. -/
theorem transact_keeps_inv {op : HostOp} {s t : State} {r : HostResult} (hs : s.Inv)
    (h : transact op s = .next (t, r)) : t.Inv := by
  obtain ⟨-, -, -, -, rfl⟩ | ⟨-, hstep, -⟩ | ⟨x, -, rfl, -⟩ | ⟨-, hdraw, -, hlen⟩ | ⟨a, v, -, ⟨h0, h1⟩, rfl, -⟩ |
    ⟨start, bytes, -, h0, h1, rfl, -⟩ | ⟨c, -, hframe, -⟩ | ⟨bytes, base, -, hload, -⟩ := transact_cases h
  · exact hs
  · exact step_keeps_inv hs hstep
  · exact hs.reboot x
  · have ⟨_, _, _, hbb, _⟩ := hs
    rw [hdraw]
    exact hs.setBb (hlen hbb)
  · exact hs.setMem_set _ (by omega) _
  · exact hs.setMem_setBlock _ _ (by omega)
  · exact renderFrame_keeps_inv hs hframe
  · obtain ⟨h0, h1, rfl⟩ := load_cases hload
    exact ((hs.setMem_setBlock _ bytes (by omega)).setImageLen _).reboot base

/-- Settles O59: `transact_keeps_inv`, from the eight kinds of transaction. -/
theorem hostOperationsKeepTheInvariant : Obligations.HostOperationsKeepTheInvariant := fun _ _ _ _ => transact_keeps_inv

/-- Every sequence of host operations is answered to its end and keeps the invariant. -/
theorem runHost_keeps_inv (ops : List HostOp) {s : State} (hs : s.Inv) :
    ∃ t results, runHost ops s = .next (t, results) ∧ t.Inv := by
  induction ops generalizing s with
  | nil => exact ⟨s, [], rfl, hs⟩
  | cons op ops ih =>
    obtain ⟨t, r, ht⟩ := transact_next op s
    obtain ⟨u, results, hu, hinv⟩ := ih (transact_keeps_inv hs ht)
    exact ⟨u, r :: results, by simp only [runHost, ht, hu], hinv⟩

/-! ## Construction and reset -/

/-- The construction of a legal configuration succeeds, and the invariant holds after it (R240; D17, D7). -/
theorem construct_establishes_inv (cfg : Config) (initMem : Nat → Byte) (h : cfg.wf = true) :
    ∃ s, construct cfg initMem = .ok s ∧ s.Inv := by
  refine ⟨_, if_pos (fits_of_wf cfg h), h, Memory.wf_ofFn _ _, fun c hc => (Memory.mem_ofFn _ _ c hc).1, ?_, ?_, ?_, ?_⟩
  · exact List.length_replicate
  · exact List.length_replicate
  · exact List.map_replicate.symm
  · exact fun hf => absurd rfl hf

/-- Settles O60: construction establishes the invariant and every sequence of operations keeps it. -/
theorem invariantHoldsFromConstructionOnwards : Obligations.InvariantHoldsFromConstructionOnwards := by
  intro cfg initMem ops hcfg
  obtain ⟨s, hs, hinv⟩ := construct_establishes_inv cfg initMem hcfg
  obtain ⟨t, results, ht, hinv'⟩ := runHost_keeps_inv ops hinv
  exact ⟨s, t, results, hs, ht, hinv'⟩

/-- A colour of three equal channels is grey (R191). -/
theorem isGrey_greyColour (level : Byte) : isGrey (greyColour level) = true := by
  have hr : (greyColour level).extractLsb' 16 8 = level :=
    (BitVec.extractLsb'_append_eq_of_le (by decide)).trans BitVec.extractLsb'_append_eq_left
  have hg : (greyColour level).extractLsb' 8 8 = level :=
    (BitVec.extractLsb'_append_eq_of_le (by decide)).trans BitVec.extractLsb'_append_eq_right
  have hb : (greyColour level).extractLsb' 0 8 = level := BitVec.extractLsb'_append_eq_right
  rw [isGrey, hr, hg, hb, beq_self_eq_true, Bool.and_self]

/-- The reset palette is legal whatever its free entries are (R190, R191). -/
theorem referencePalette_wf : paletteWf referencePalette = true := by
  have hlen : referencePalette.length = 256 := by simp [referencePalette]
  have hgrey : (referencePalette.drop 7).all isGrey = true := by
    rw [List.all_eq_true]
    intro c hc
    obtain ⟨k, hk, rfl⟩ := List.mem_iff_getElem.1 hc
    simp only [referencePalette, List.getElem_drop, List.getElem_map, List.getElem_range, referenceColour]
    rw [if_neg (by omega)]
    exact isGrey_greyColour _
  rw [paletteWf, hlen, hgrey]
  rfl

/-- The reset font maps the space to a blank glyph whatever its free glyphs are (R167, D13). -/
theorem referenceFont_wf : fontWf referenceFont = true := by
  simp [fontWf, referenceFont]

theorem referenceConfig_wf : referenceConfig.wf = true := by
  have hfits : referenceConfig.fits = true := by decide
  have hopc : referenceConfig.opc.wf = true := by decide
  rw [Config.wf, hfits, hopc]
  simp [referenceConfig, referencePalette_wf, referenceFont_wf]

/-- Settles O57: the reference configuration is legal, memory lists nothing, and the buffers are constant. -/
theorem resetMeetsTheInvariant : Obligations.ResetMeetsTheInvariant := by
  refine ⟨referenceConfig_wf, Memory.wf_nil, fun c hc => absurd hc List.not_mem_nil, ?_, ?_, ?_, ?_⟩
  · exact List.length_replicate
  · exact List.length_replicate
  · exact List.map_replicate.symm
  · exact fun hf => absurd rfl hf

end Sys2Proof.Machine
end

section
/-! The memory controller (20_memory.md): what its reads answer, what they answer after its writes, and which cell a step
can write. -/

namespace Sys2Proof.Machine

/-! ## Reads -/

/-- An address is invalid exactly when it is negative or at least `MEM_SIZE` (R51). -/
theorem not_valid_iff (s : State) (addr : Int) : ¬s.valid addr ↔ addr < 0 ∨ (s.cfg.memSize : Int) ≤ addr := by
  unfold State.valid
  omega

/-- Settles O29: `readByte_of_valid` and `readByte_of_not_valid`. -/
theorem readByteChecksBounds : Obligations.ReadByteChecksBounds := fun s addr =>
  ⟨fun h0 h1 => readByte_of_valid s addr ⟨h0, h1⟩, fun h => readByte_of_not_valid s addr ((not_valid_iff s addr).2 h)⟩

theorem readWord16_of_valid (s : State) (addr : Int) (h : s.valid addr) (h' : s.valid (addr + 1)) :
    readWord16 s addr = .ok (joinAddr (Memory.get s.mem addr.toNat) (Memory.get s.mem (addr + 1).toNat)) := by
  rw [readWord16, readByte_of_valid s addr h, readByte_of_valid s (addr + 1) h']

theorem readWord16_of_not_valid (s : State) (addr : Int) (h : ¬s.valid addr) :
    readWord16 s addr = .error (.addressOutOfRange addr) := by
  rw [readWord16, readByte_of_not_valid s addr h]

theorem readWord16_of_not_valid_succ (s : State) (addr : Int) (h : s.valid addr) (h' : ¬s.valid (addr + 1)) :
    readWord16 s addr = .error (.addressOutOfRange (addr + 1)) := by
  rw [readWord16, readByte_of_valid s addr h, readByte_of_not_valid s (addr + 1) h']

/-- Settles O32: one `readWord16` lemma per place where a byte read can fail. -/
theorem readWord16IsBigEndian : Obligations.ReadWord16IsBigEndian := by
  refine fun s addr => ⟨fun h0 h1 => ?_, fun h => ?_, fun h0 h1 => ?_⟩
  · exact ⟨_, readWord16_of_valid s addr ⟨h0, by omega⟩ ⟨by omega, h1⟩, joinAddr_toNat _ _⟩
  · exact readWord16_of_not_valid s addr ((not_valid_iff s addr).2 h)
  · exact readWord16_of_not_valid_succ s addr ⟨h0, by omega⟩ ((not_valid_iff s _).2 (.inr h1.ge))

/-! ## Reads after writes -/

/-- With another memory, a read inside Memory answers the other memory's cell. -/
theorem readByte_setMem (s : State) (m : Memory) (addr : Int) (hv : s.valid addr) :
    readByte (s.setMem m) addr = .ok (Memory.get m addr.toNat) := readByte_of_valid (s.setMem m) addr hv

/-- A read sees of a new memory only the cell at its own address; whether it fails does not depend on memory. -/
theorem readByte_setMem_congr (s : State) (m : Memory) (addr : Int)
    (h : s.valid addr → Memory.get m addr.toNat = Memory.get s.mem addr.toNat) :
    readByte (s.setMem m) addr = readByte s addr := by
  by_cases hv : s.valid addr
  · rw [readByte_setMem s m addr hv, readByte_of_valid s addr hv, h hv]
  · rw [readByte_of_not_valid (s.setMem m) addr hv, readByte_of_not_valid s addr hv]

/-- A read of the stored address gives the stored byte (R52, R53). -/
theorem readByte_set_eq (s : State) (addr : Int) (b : Byte) (hm : Memory.wf s.mem = true) (hv : s.valid addr) :
    readByte (s.setMem (Memory.set s.mem addr.toNat b)) addr = .ok b := by
  rw [readByte_setMem s _ addr hv, Memory.get_set_eq s.mem _ b hm]

/-- A store leaves the read of every other address as it was, failures included. -/
theorem readByte_set_ne (s : State) (addr x : Int) (b : Byte) (hv : s.valid addr) (hx : x ≠ addr) :
    readByte (s.setMem (Memory.set s.mem addr.toNat b)) x = readByte s x := by
  obtain ⟨h0, -⟩ := hv
  refine readByte_setMem_congr s _ x fun ⟨hx0, _⟩ => Memory.get_set_ne s.mem _ b _ ?_
  omega

/-- The byte of a host value is its remainder, which is never negative (R53, D10). -/
theorem byteOfInt_toNat (v : Int) : ((byteOfInt v).toNat : Int) = v % 256 := by
  rw [byteOfInt, BitVec.toNat_ofInt]
  omega

/-- Settles O30: the store of `byteOfInt value`, read back by `readByte_set_eq` and `readByte_set_ne`. -/
theorem writeByteThenReadByte : Obligations.WriteByteThenReadByte := by
  refine fun s addr value hm => ⟨fun h0 h1 => ?_, fun h => ?_⟩
  · have hv : s.valid addr := ⟨h0, h1⟩
    exact ⟨_, byteOfInt value, storeByte_of_valid s addr _ hv, readByte_set_eq s addr _ hm hv, byteOfInt_toNat value,
      fun x hx => readByte_set_ne s addr x _ hv hx, rfl⟩
  · exact storeByte_of_not_valid s addr _ ((not_valid_iff s addr).2 h)

/-- After a block store inside Memory, address `start + k` reads as byte `k` (R54). -/
theorem readByte_setBlock_inside (s : State) (start : Int) (bytes : List Byte) (hm : Memory.wf s.mem = true)
    (h0 : 0 ≤ start) (h1 : start + bytes.length ≤ s.cfg.memSize) (k : Nat) (hk : k < bytes.length) :
    readByte (s.setMem (Memory.setBlock s.mem start.toNat bytes)) (start + k) = .ok bytes[k] := by
  have hv : s.valid (start + k) := ⟨by omega, by omega⟩
  have haddr : (start + k).toNat = start.toNat + k := by omega
  rw [readByte_setMem s _ _ hv, haddr, Memory.get_setBlock_inside bytes s.mem _ k hm hk]

/-- A block store leaves the read of every address outside its range as it was, failures included (R54). -/
theorem readByte_setBlock_outside (s : State) (start x : Int) (bytes : List Byte) (h0 : 0 ≤ start)
    (hx : x < start ∨ start + bytes.length ≤ x) :
    readByte (s.setMem (Memory.setBlock s.mem start.toNat bytes)) x = readByte s x := by
  refine readByte_setMem_congr s _ x fun ⟨hx0, _⟩ => Memory.get_setBlock_outside bytes s.mem _ _ ?_
  omega

/-- Settles O31: a range that does not fit is refused before anything is stored; one that fits is stored whole. -/
theorem writeBlockIsAllOrNothing : Obligations.WriteBlockIsAllOrNothing := by
  refine fun s start bytes hm => ⟨writeBlock_of_not_fits s start bytes, fun h0 h1 => ?_⟩
  exact ⟨_, writeBlock_of_fits s start bytes h0 h1, readByte_setBlock_inside s start bytes hm h0 h1,
    fun x hx => readByte_setBlock_outside s start x bytes h0 hx, rfl⟩

/-- Settles O16: the store puts the byte in the cell that `fetch` reads, and leaves `PC` and `MEM_SIZE` alone. -/
theorem writtenByteIsFetchedNext : Obligations.WrittenByteIsFetchedNext := by
  intro s v hm hpc
  refine ⟨_, storeByte_of_valid s _ (byteOfInt v) ((valid_addr s _).2 hpc), rfl, ?_⟩
  rw [fetch_of_valid]
  · exact congrArg (Fetched.value · _) (Memory.get_set_eq s.mem _ _ hm)
  · exact hpc

/-! ## The cell a step writes -/

/-- An instruction leaves memory as it was, or is a `STA` that wrote its cell (R120-R146). -/
theorem exec_mem_cases {i : Instr} {s t : State} (h : exec i s = .next t) :
    t.mem = s.mem ∨ ∃ addr : Addr, i = .sta addr ∧ t.mem = Memory.set s.mem addr.toNat s.a := by
  obtain ⟨-, e⟩ | ⟨_, -, e⟩ | ⟨_, -, -, e⟩ | ⟨addr, rfl, -, e⟩ | ⟨_, -, -, e⟩ | ⟨_, -, e⟩ | ⟨_, -, e⟩ | ⟨_, -, e⟩ |
    ⟨_, -, -, e⟩ | ⟨_, -, -, e⟩ | ⟨-, e⟩ := exec_cases i s <;>
  rw [e] at h <;> obtain rfl := Host.Outcome.next.inj h
  case inr.inr.inr.inl => exact .inr ⟨addr, rfl, rfl⟩
  all_goals exact .inl rfl

/-- A step leaves memory as it was, or fetched a `STA` and wrote its cell (R60, R106). -/
theorem step_mem_cases {s t : State} (h : step s = .next t) :
    t.mem = s.mem ∨
      ∃ (addr : Addr) (u : State), fetchInstr s = .value (.sta addr) u ∧ t.mem = Memory.set s.mem addr.toNat s.a := by
  obtain ⟨-, rfl⟩ | ⟨-, f, u, hf, rfl⟩ | ⟨-, i, u, hf, he⟩ := step_cases h
  · exact .inl rfl
  · rw [fetchInstr_raised_frame hf]
    exact .inl rfl
  · have hu := fetchInstr_value_frame hf
    obtain hmem | ⟨addr, rfl, hmem⟩ := exec_mem_cases he
    · rw [hmem, hu]
      exact .inl rfl
    · refine .inr ⟨addr, u, hf, ?_⟩
      rw [hmem, hu]
      rfl

/-- Settles O15: in `step_mem_cases` memory stays, or the one cell stored is that of the fetched `STA`. -/
theorem stepWritesMemoryOnlyByStore : Obligations.StepWritesMemoryOnlyByStore := by
  intro s
  obtain ⟨t, ht⟩ := step_next s
  refine ⟨t, ht, ?_⟩
  obtain hmem | ⟨addr, u, hf, hmem⟩ := step_mem_cases ht <;> rw [hmem]
  · exact ⟨fun _ _ _ _ _ => rfl, fun _ => rfl⟩
  · refine ⟨fun addr' u' hf' x hx => ?_, fun hno => absurd hf (hno addr u)⟩
    obtain ⟨⟨⟩, -⟩ := Fetched.value.inj (hf.symm.trans hf')
    exact Memory.get_set_ne s.mem _ _ x hx

end Sys2Proof.Machine
end

section
/-! The encoding (30_encoding.md): which mnemonic a byte decodes to, then decoding and encoding by format (R81, R87). -/

namespace Sys2Proof

/-! ## The opcode byte -/

/-- The decoder answers a mnemonic that has the byte, or `Unknown` of the byte when no mnemonic has it (R87). -/
theorem decodeOpcode_cases (o : Opc) (b : Byte) :
    (∃ m, decodeOpcode o b = .known m ∧ o.byteOf m = b) ∨
      (decodeOpcode o b = .unknown b ∧ ∀ m, o.byteOf m ≠ b) := by
  unfold decodeOpcode
  cases hfind : Mnemonic.all.find? (fun m => o.byteOf m == b) with
  | some m => exact .inl ⟨m, rfl, by simpa using List.find?_some hfind⟩
  | none => exact .inr ⟨rfl, fun m => by simpa using List.find?_eq_none.1 hfind m m.mem_all⟩

/-- With an injective `OPC` the byte of a mnemonic decodes to it (R86, R87). -/
theorem decodeOpcode_byteOf {o : Opc} (h : o.wf = true) (m : Mnemonic) : decodeOpcode o (o.byteOf m) = .known m := by
  obtain ⟨m', hdec, hbyte⟩ | ⟨-, hnone⟩ := decodeOpcode_cases o (o.byteOf m)
  · rw [hdec, o.byteOf_inj h m' m hbyte]
  · exact absurd rfl (hnone m)

theorem byteOf_of_decodeOpcode {o : Opc} {b : Byte} {m : Mnemonic} (h : decodeOpcode o b = .known m) :
    o.byteOf m = b := by
  obtain ⟨m', hdec, hbyte⟩ | ⟨hdec, -⟩ := decodeOpcode_cases o b
  · cases hdec.symm.trans h
    exact hbyte
  · cases hdec.symm.trans h

theorem decodeOpcode_eq_known_iff {o : Opc} (h : o.wf = true) (b : Byte) (m : Mnemonic) :
    decodeOpcode o b = .known m ↔ o.byteOf m = b :=
  ⟨byteOf_of_decodeOpcode, fun hbyte => hbyte ▸ decodeOpcode_byteOf h m⟩

/-- This direction of R87 needs no injectivity. -/
theorem decodeOpcode_eq_unknown_iff (o : Opc) (b c : Byte) :
    decodeOpcode o b = .unknown c ↔ c = b ∧ ∀ m, o.byteOf m ≠ b := by
  obtain ⟨m, hdec, hbyte⟩ | ⟨hdec, hnone⟩ := decodeOpcode_cases o b <;> rw [hdec]
  · exact ⟨nofun, fun ⟨_, hne⟩ => absurd hbyte (hne m)⟩
  · exact ⟨fun hc => ⟨(Variant.unknown.inj hc).symm, hnone⟩, fun ⟨hc, _⟩ => hc ▸ rfl⟩

/-! ## The three formats (R81) -/

section Formats

variable {m : Mnemonic}

theorem encode_of_implied (o : Opc) {i : Instr} (hm : m.form = .implied i) : encode o i = [o.byteOf m] := by
  cases m <;> cases hm <;> rfl

theorem encode_of_immediate (o : Opc) {mk : Byte → Instr} (hm : m.form = .immediate mk) (b : Byte) :
    encode o (mk b) = [o.byteOf m, b] := by
  cases m <;> cases hm <;> rfl

theorem encode_of_absolute (o : Opc) {mk : Addr → Instr} (hm : m.form = .absolute mk) (addr : Addr) :
    encode o (mk addr) = [o.byteOf m, highByte addr, lowByte addr] := by
  cases m <;> cases hm <;> rfl

end Formats

/-- Every instruction is built by the format of its mnemonic (R85). -/
theorem Instr.form_cases (i : Instr) :
    i.mnemonic.form = .implied i ∨ (∃ mk b, i.mnemonic.form = .immediate mk ∧ i = mk b) ∨
      ∃ mk addr, i.mnemonic.form = .absolute mk ∧ i = mk addr := by
  cases i with
  | nop | halt => exact .inl rfl
  | ldaImm imm | add imm | sub imm => exact .inr (.inl ⟨_, imm, rfl, rfl⟩)
  | sta addr | ldaAbs addr | jmp addr | jz addr => exact .inr (.inr ⟨_, addr, rfl, rfl⟩)

/-- Operands that decode are none, one byte, or two bytes of an address, as the format says (R82, R83). -/
theorem decodeOperands_cases {f : OperandForm} {bytes rest : List Byte} {i : Instr}
    (h : decodeOperands f bytes = .instr i rest) :
    (f = .implied i ∧ bytes = rest) ∨ (∃ mk b, f = .immediate mk ∧ i = mk b ∧ bytes = b :: rest) ∨
      ∃ mk hi lo, f = .absolute mk ∧ i = mk (joinAddr hi lo) ∧ bytes = hi :: lo :: rest := by
  match f, bytes, h with
  | .implied _, _, rfl => exact .inl ⟨rfl, rfl⟩
  | .immediate mk, b :: _, rfl => exact .inr (.inl ⟨mk, b, rfl, rfl, rfl⟩)
  | .absolute mk, hi :: lo :: _, rfl => exact .inr (.inr ⟨mk, hi, lo, rfl, rfl, rfl⟩)

/-- Bytes that decode begin with the opcode byte of a mnemonic, whose format reads the bytes after it. -/
theorem decode_cases {o : Opc} {bytes rest : List Byte} {i : Instr} (h : decode o bytes = .instr i rest) :
    ∃ m operands, bytes = o.byteOf m :: operands ∧ decodeOperands m.form operands = .instr i rest := by
  cases bytes with
  | nil => cases h
  | cons b operands =>
    rw [decode] at h
    obtain ⟨m, hdec, rfl⟩ | ⟨hdec, -⟩ := decodeOpcode_cases o b <;> rw [hdec] at h
    · exact ⟨m, operands, rfl, h⟩
    · cases h

section Decode

variable {o : Opc} (h : o.wf = true) {m : Mnemonic}
include h

/-- After the opcode byte of a mnemonic the decoder reads the operands of its format. -/
theorem decode_byteOf_cons (m : Mnemonic) (bytes : List Byte) :
    decode o (o.byteOf m :: bytes) = decodeOperands m.form bytes := by
  rw [decode, decodeOpcode_byteOf h]

theorem decode_implied {i : Instr} (hm : m.form = .implied i) (rest : List Byte) :
    decode o (o.byteOf m :: rest) = .instr i rest := by
  rw [decode_byteOf_cons h, hm, decodeOperands]

theorem decode_immediate {mk : Byte → Instr} (hm : m.form = .immediate mk) (b : Byte) (rest : List Byte) :
    decode o (o.byteOf m :: b :: rest) = .instr (mk b) rest := by
  rw [decode_byteOf_cons h, hm, decodeOperands]

theorem decode_absolute {mk : Addr → Instr} (hm : m.form = .absolute mk) (hi lo : Byte) (rest : List Byte) :
    decode o (o.byteOf m :: hi :: lo :: rest) = .instr (mk (joinAddr hi lo)) rest := by
  rw [decode_byteOf_cons h, hm, decodeOperands]

end Decode

/-! ## The statements -/

/-- Settles O2: by the format of the instruction; an address is assembled again from its two bytes. -/
theorem decodeInvertsEncode : Obligations.DecodeInvertsEncode := by
  intro o h i rest
  obtain hm | ⟨mk, b, hm, hi⟩ | ⟨mk, addr, hm, hi⟩ := i.form_cases
  · rw [encode_of_implied o hm]
    exact decode_implied h hm rest
  · rw [hi, encode_of_immediate o hm]
    exact decode_immediate h hm b rest
  · rw [hi, encode_of_absolute o hm]
    refine (decode_absolute h hm (highByte addr) (lowByte addr) rest).trans ?_
    rw [joinAddr_bytes]

/-- Settles O3: by the format that was read; the bytes of an assembled address are the two that were read. -/
theorem encodeInvertsDecode : Obligations.EncodeInvertsDecode := by
  intro o bytes i rest h
  obtain ⟨m, operands, rfl, hops⟩ := decode_cases h
  obtain ⟨hm, rfl⟩ | ⟨mk, b, hm, rfl, rfl⟩ | ⟨mk, hi, lo, hm, rfl, rfl⟩ := decodeOperands_cases hops
  · rw [encode_of_implied o hm]
    rfl
  · rw [encode_of_immediate o hm]
    rfl
  · rw [encode_of_absolute o hm, highByte_joinAddr, lowByte_joinAddr]
    rfl

/-- Settles O4: only the first equivalence needs that `OPC` is injective. -/
theorem opcodeByteDecodesToItsMnemonic : Obligations.OpcodeByteDecodesToItsMnemonic := fun o h b =>
  ⟨decodeOpcode_eq_known_iff h b, decodeOpcode_eq_unknown_iff o b⟩

/-- Settles O5: the address is `joinAddr` of the two bytes, which does not overflow. -/
theorem operandBytesAreAssembledHighByteFirst : Obligations.OperandBytesAreAssembledHighByteFirst :=
  fun _ h _ b1 b2 rest =>
    ⟨fun _ hm => ⟨joinAddr b1 b2, joinAddr_toNat b1 b2, decode_absolute h hm b1 b2 rest⟩,
      fun _ hm => decode_immediate h hm b1 rest, fun _ hm => decode_implied h hm rest⟩

/-- Settles O1: each of the nine words is the encoding of its instruction, and no mnemonic has the byte `0xFF`. -/
theorem referenceWordsDecode : Obligations.ReferenceWordsDecode := by
  have hdec (i : Instr) : decode Opc.reference (encode Opc.reference i ++ []) = .instr i [] :=
    decodeInvertsEncode Opc.reference (by decide) i []
  have hff : decodeOpcode Opc.reference 0xFF = .unknown 0xFF :=
    (decodeOpcode_eq_unknown_iff _ _ _).2 ⟨rfl, fun m => by cases m <;> decide⟩
  refine ⟨hdec .nop, hdec (.ldaImm 0x2A), hdec (.sta 0x0100), hdec (.ldaAbs 0x0010), hdec (.add 0xFF),
    hdec (.sub 0x01), hdec (.jmp 0x1234), hdec (.jz 0x000A), hdec .halt, ?_⟩
  rw [decode, hff]

end Sys2Proof
end

section
/-! The CPU cycle (40_cpu_cycle.md): what fetching an instruction answers by where its bytes lie, which steps fault, and
that a step reads only the CPU and Memory (R100-R111). -/

namespace Sys2Proof.Machine

/-! ## The bytes of an instruction -/

/-- The state whose `PC` has moved `k` bytes on, modulo 65536 (R102). -/
def State.advance (s : State) (k : Nat) : State := s.setPc (s.pc + BitVec.ofNat 16 k)

/-- The first `n` bytes from `PC` on lie in Memory. -/
def State.Inside (s : State) (n : Nat) : Prop := ∀ k, k < n → s.fetchAddress k < s.cfg.memSize

/-- Byte `k` from `PC` on is the first that lies outside Memory: the fetch that fails. -/
def State.FirstOutside (s : State) (k : Nat) : Prop := s.Inside k ∧ s.cfg.memSize ≤ s.fetchAddress k

/-- The two bytes after the opcode byte: the longest operand (R81). -/
def State.operandBytes (s : State) : List Byte :=
  [Memory.get s.mem (s.fetchAddress 1), Memory.get s.mem (s.fetchAddress 2)]

@[simp] theorem State.fetchAddress_zero (s : State) : s.fetchAddress 0 = s.pc.toNat :=
  congrArg BitVec.toNat (BitVec.add_zero s.pc)

theorem State.advance_succ (s : State) (k : Nat) :
    (s.advance k).setPc ((s.advance k).pc + 1) = s.advance (k + 1) := by
  have hpc : s.pc + BitVec.ofNat 16 k + 1 = s.pc + BitVec.ofNat 16 (k + 1) := by
    rw [BitVec.ofNat_add, ← BitVec.add_assoc]
    rfl
  exact congrArg s.setPc hpc

theorem State.inside_or_firstOutside (s : State) (n : Nat) : s.Inside n ∨ ∃ k, k < n ∧ s.FirstOutside k := by
  induction n with
  | zero => exact .inl fun k hk => absurd hk k.not_lt_zero
  | succ n ih =>
    obtain hin | ⟨k, hk, hout⟩ := ih
    · obtain hn | hn := Nat.lt_or_ge (s.fetchAddress n) s.cfg.memSize
      · refine .inl fun k hk => ?_
        obtain hk | rfl := Nat.lt_succ_iff_lt_or_eq.1 hk
        · exact hin k hk
        · exact hn
      · exact .inr ⟨n, n.lt_succ_self, hin, hn⟩
    · exact .inr ⟨k, Nat.lt_succ_of_lt hk, hout⟩

/-! ## Fetching an instruction -/

/-- Every format has an opcode byte (R81). -/
theorem form_length_pos (form : OperandForm) : 0 < form.length := by
  cases form <;> exact Nat.succ_pos _

theorem fetch_advance_of_inside {s : State} {k : Nat} (h : s.fetchAddress k < s.cfg.memSize) :
    fetch (s.advance k) = .value (Memory.get s.mem (s.fetchAddress k)) (s.advance (k + 1)) := by
  rw [fetch_of_valid (s.advance k) h, State.advance_succ]
  rfl

theorem fetch_advance_of_outside {s : State} {k : Nat} (h : s.cfg.memSize ≤ s.fetchAddress k) :
    fetch (s.advance k) = .raised (.addressOutOfRange (s.fetchAddress k)) (s.advance k) :=
  fetch_of_not_valid (s.advance k) h

/-- When every operand byte lies in Memory, the fetch of operands is their decoding (R82, R83, R103). -/
theorem fetchOperands_of_inside {s : State} {form : OperandForm} (h : s.Inside form.length) :
    ∃ i rest, decodeOperands form s.operandBytes = .instr i rest ∧
      fetchOperands form (s.advance 1) = .value i (s.advance form.length) := by
  cases form with
  | implied i => exact ⟨i, _, rfl, rfl⟩
  | immediate mk =>
    refine ⟨_, _, rfl, ?_⟩
    simp only [fetchOperands, fetch_advance_of_inside (h 1 Nat.one_lt_two)]
    rfl
  | absolute mk =>
    refine ⟨_, _, rfl, ?_⟩
    simp only [fetchOperands, fetch_advance_of_inside (h 1 (show 1 < 3 by decide)),
      fetch_advance_of_inside (h 2 (show 2 < 3 by decide))]
    rfl

/-- The first operand byte outside Memory ends the fetch with its address (R107, R215). -/
theorem fetchOperands_of_firstOutside {s : State} {form : OperandForm} {k : Nat} (h1 : 1 ≤ k) (hk : k < form.length)
    (h : s.FirstOutside k) :
    fetchOperands form (s.advance 1) = .raised (.addressOutOfRange (s.fetchAddress k)) (s.advance k) := by
  obtain ⟨hin, hout⟩ := h
  cases form with
  | implied i => exact absurd h1 (Nat.not_le_of_lt hk)
  | immediate mk =>
    obtain rfl : k = 1 := Nat.le_antisymm (Nat.le_of_lt_succ hk) h1
    simp only [fetchOperands, fetch_advance_of_outside hout]
  | absolute mk =>
    have hk3 : k < 3 := hk
    obtain rfl | rfl : k = 1 ∨ k = 2 := by omega
    · simp only [fetchOperands, fetch_advance_of_outside hout]
    · simp only [fetchOperands, fetch_advance_of_inside (hin 1 (by decide)), fetch_advance_of_outside hout]

/-- An opcode byte outside Memory ends the fetch with its address (R107). -/
theorem fetchInstr_of_pc_outside {s : State} (h : s.cfg.memSize ≤ s.pc.toNat) :
    fetchInstr s = .raised (.addressOutOfRange s.pc.toNat) s := by
  simp only [fetchInstr, fetch_of_not_valid s h]

/-- An unassigned opcode byte ends the fetch before any operand is fetched (R104). -/
theorem fetchInstr_of_unknown {s : State} {b : Byte} (h : s.pc.toNat < s.cfg.memSize)
    (hb : decodeOpcode s.cfg.opc (Memory.get s.mem s.pc.toNat) = .unknown b) :
    fetchInstr s = .raised (.illegalOpcode b s.pc) (s.advance 1) := by
  simp only [fetchInstr, fetch_of_valid s h, hb]
  rfl

/-- After an assigned opcode byte the operands are fetched (R103). -/
theorem fetchInstr_of_known {s : State} {m : Mnemonic} (h : s.pc.toNat < s.cfg.memSize)
    (hm : decodeOpcode s.cfg.opc (Memory.get s.mem s.pc.toNat) = .known m) :
    fetchInstr s = fetchOperands m.form (s.advance 1) := by
  simp only [fetchInstr, fetch_of_valid s h, hm]
  rfl

/-- Everything that fetching an instruction can answer, in the order of R215. -/
theorem fetchInstr_cases (s : State) :
    (s.cfg.memSize ≤ s.pc.toNat ∧ fetchInstr s = .raised (.addressOutOfRange s.pc.toNat) s) ∨
    (s.pc.toNat < s.cfg.memSize ∧ ∃ b, decodeOpcode s.cfg.opc (Memory.get s.mem s.pc.toNat) = .unknown b ∧
      fetchInstr s = .raised (.illegalOpcode b s.pc) (s.advance 1)) ∨
    (s.pc.toNat < s.cfg.memSize ∧ ∃ m, decodeOpcode s.cfg.opc (Memory.get s.mem s.pc.toNat) = .known m ∧
      ∃ k, 1 ≤ k ∧ k < m.form.length ∧ s.FirstOutside k ∧
        fetchInstr s = .raised (.addressOutOfRange (s.fetchAddress k)) (s.advance k)) ∨
    (s.pc.toNat < s.cfg.memSize ∧ ∃ m, decodeOpcode s.cfg.opc (Memory.get s.mem s.pc.toNat) = .known m ∧
      s.Inside m.form.length ∧ ∃ i rest, decodeOperands m.form s.operandBytes = .instr i rest ∧
        fetchInstr s = .value i (s.advance m.form.length)) := by
  obtain hpc | hpc := Nat.lt_or_ge s.pc.toNat s.cfg.memSize
  · cases hop : decodeOpcode s.cfg.opc (Memory.get s.mem s.pc.toNat) with
    | unknown b => exact .inr (.inl ⟨hpc, b, rfl, fetchInstr_of_unknown hpc hop⟩)
    | known m =>
      rw [fetchInstr_of_known hpc hop]
      obtain hin | ⟨k, hk, hout⟩ := s.inside_or_firstOutside m.form.length
      · exact .inr (.inr (.inr ⟨hpc, m, rfl, hin, fetchOperands_of_inside hin⟩))
      · have h1 : 1 ≤ k := by
          refine Nat.one_le_iff_ne_zero.2 ?_
          rintro rfl
          exact Nat.not_lt.2 hout.2 (s.fetchAddress_zero ▸ hpc)
        exact .inr (.inr (.inl ⟨hpc, m, rfl, k, h1, hk, hout, fetchOperands_of_firstOutside h1 hk hout⟩))
  · exact .inl ⟨hpc, fetchInstr_of_pc_outside hpc⟩

/-- What the operands of a mnemonic build is an instruction of that mnemonic (R85). -/
theorem mnemonic_of_decodeOperands {m : Mnemonic} {bytes rest : List Byte} {i : Instr}
    (h : decodeOperands m.form bytes = .instr i rest) : i.mnemonic = m := by
  obtain ⟨hm, -⟩ | ⟨mk, b, hm, rfl, -⟩ | ⟨mk, hi, lo, hm, rfl, -⟩ := decodeOperands_cases h <;>
    cases m <;> cases hm <;> rfl

/-- Bytes at `PC` that decode to an instruction and lie in Memory are fetched as that instruction. -/
theorem fetchInstr_of_decode {s : State} {i : Instr} {rest : List Byte} (hin : s.Inside i.length)
    (h : decode s.cfg.opc (bytesAtPc s) = .instr i rest) : fetchInstr s = .value i (s.advance i.length) := by
  rw [bytesAtPc, decode] at h
  cases hop : decodeOpcode s.cfg.opc (Memory.get s.mem s.pc.toNat) with
  | unknown b =>
    rw [hop] at h
    cases h
  | known m =>
    rw [hop] at h
    have hops : decodeOperands m.form s.operandBytes = .instr i rest := h
    obtain rfl := mnemonic_of_decodeOperands hops
    obtain ⟨j, rest', hj, hfetch⟩ := fetchOperands_of_inside hin
    obtain ⟨rfl, -⟩ := Decoded.instr.inj (hops.symm.trans hj)
    rw [fetchInstr_of_known (s.fetchAddress_zero ▸ hin 0 (form_length_pos _)) hop]
    exact hfetch

/-- Settles O6: the bytes are fetched as the instruction (`fetchInstr_of_decode`), which the step then runs. -/
theorem stepRunsTheDecodedInstruction : Obligations.StepRunsTheDecodedInstruction := fun _ _ _ hrun hin hdec =>
  step_of_value hrun (fetchInstr_of_decode hin hdec)

/-! ## Instructions by case -/

theorem exec_ldaAbs_of_inside {s : State} {addr : Addr} (h : addr.toNat < s.cfg.memSize) :
    exec (.ldaAbs addr) s = .next (s.setA (Memory.get s.mem addr.toNat)) := by
  simp only [exec, execLdaAbs, loadAbsolute, readByte_of_valid s _ ((valid_addr s _).2 h)]
  rfl

theorem exec_sta_of_inside {s : State} {addr : Addr} (h : addr.toNat < s.cfg.memSize) :
    exec (.sta addr) s = .next (s.setMem (Memory.set s.mem addr.toNat s.a)) := by
  simp only [exec, execSta, storeAbsolute, storeByte_of_valid s _ _ ((valid_addr s _).2 h)]
  rfl

theorem exec_jz (addr : Addr) (s : State) :
    exec (.jz addr) s = .next (if s.a = 0 then s.setPc addr else s) := by
  simp only [exec, execJz, accumulatorIsZero, beq_iff_eq]

/-! ## Faults of an instruction -/

/-- The instruction accesses `addr`, which lies outside a Memory of `size` cells: a `LDA addr` or `STA addr` that
faults (R107). -/
def AccessesOutside (size : Nat) (i : Instr) (addr : Addr) : Prop :=
  (i = .ldaAbs addr ∨ i = .sta addr) ∧ size ≤ addr.toNat

/-- An instruction takes the fault of its access outside Memory, or it leaves the latch alone and halts the CPU only if
it is `HALT` (R107, R146). -/
theorem exec_fault_cases (i : Instr) (s : State) :
    (∃ addr, AccessesOutside s.cfg.memSize i addr ∧
      exec i s = .next (takeFault (.addressOutOfRange addr.toNat) s)) ∨
    ((∀ addr, ¬AccessesOutside s.cfg.memSize i addr) ∧
      ∃ t, exec i s = .next t ∧ t.fault = s.fault ∧ (t.halted = true ↔ s.halted = true ∨ i = .halt)) := by
  obtain ⟨rfl, e⟩ | ⟨_, rfl, e⟩ | ⟨addr, rfl, hin, e⟩ | ⟨addr, rfl, hin, e⟩ | ⟨addr, hi, hout, e⟩ | ⟨_, rfl, e⟩ |
    ⟨_, rfl, e⟩ | ⟨_, rfl, e⟩ | ⟨_, rfl, -, e⟩ | ⟨_, rfl, -, e⟩ | ⟨rfl, e⟩ := exec_cases i s
  case inr.inr.inr.inr.inl => exact .inl ⟨addr, ⟨hi, hout⟩, e⟩
  all_goals
    refine .inr ⟨?_, _, e, rfl, by simp⟩
    rintro a ⟨h | h, hout⟩ <;> cases h
  · omega
  · omega

theorem exec_of_accessesOutside {i : Instr} {s : State} {addr : Addr} (h : AccessesOutside s.cfg.memSize i addr) :
    exec i s = .next (takeFault (.addressOutOfRange addr.toNat) s) := by
  obtain ⟨a, ⟨ha, -⟩, e⟩ | ⟨hno, -⟩ := exec_fault_cases i s
  · obtain ⟨rfl | rfl, -⟩ := h <;> obtain ⟨⟨⟩⟩ | ⟨⟨⟩⟩ := ha <;> exact e
  · exact absurd h (hno addr)

/-- Settles O21: both accesses take their fault by `exec_of_accessesOutside`. -/
theorem absoluteAccessOutsideMemoryFaults : Obligations.AbsoluteAccessOutsideMemoryFaults := fun _ _ h =>
  ⟨⟨_, exec_of_accessesOutside ⟨.inl rfl, h⟩, rfl⟩, ⟨_, exec_of_accessesOutside ⟨.inr rfl, h⟩, rfl⟩⟩

/-! ## The step reads only the CPU and Memory -/

/-- The two machines agree on all that a step reads: `PC`, `A`, `HALTED`, Memory, `MEM_SIZE` and `OPC` (R110). -/
structure State.Agree (s u : State) : Prop where
  pc : s.pc = u.pc
  a : s.a = u.a
  halted : s.halted = u.halted
  mem : s.mem = u.mem
  memSize : s.cfg.memSize = u.cfg.memSize
  opc : s.cfg.opc = u.cfg.opc

/-- The latches of `t` and `v` hold the same, or each still holds what that of `s` and of `u` did (R110). -/
def State.LatchesAgree (s u t v : State) : Prop := t.fault = v.fault ∨ (t.fault = s.fault ∧ v.fault = u.fault)

theorem State.LatchesAgree.trans {s u s' u' t v : State} (h : State.LatchesAgree s u s' u')
    (h' : State.LatchesAgree s' u' t v) : State.LatchesAgree s u t v := by
  obtain heq | ⟨ht, hv⟩ := h'
  · exact .inl heq
  · rw [State.LatchesAgree, ht, hv]
    exact h

section Updates

variable {s u : State} (h : s.Agree u)
include h

theorem State.Agree.setPc (p : Addr) : (s.setPc p).Agree (u.setPc p) := { h with pc := rfl }

theorem State.Agree.setA (v : Byte) : (s.setA v).Agree (u.setA v) := { h with a := rfl }

theorem State.Agree.setMem (m : Memory) : (s.setMem m).Agree (u.setMem m) := { h with mem := rfl }

theorem State.Agree.setHalted (b : Bool) : (s.setHalted b).Agree (u.setHalted b) := { h with halted := rfl }

/-- The agreement does not speak of the latch. -/
theorem State.Agree.setFault (f : Option Fault) : (s.setFault f).Agree (u.setFault f) := { h with }

theorem State.Agree.takeFault (f : Fault) : (takeFault f s).Agree (takeFault f u) := { h with halted := rfl }

end Updates

/-- One instruction run on machines that agree leaves machines that agree. -/
theorem exec_congr (i : Instr) {s u : State} (h : s.Agree u) :
    ∃ t v, exec i s = .next t ∧ exec i u = .next v ∧ t.Agree v ∧ State.LatchesAgree s u t v := by
  cases i with
  | nop => exact ⟨s, u, rfl, rfl, h, .inr ⟨rfl, rfl⟩⟩
  | ldaImm imm => exact ⟨_, _, rfl, rfl, h.setA imm, .inr ⟨rfl, rfl⟩⟩
  | sta addr =>
    obtain hin | hout := Nat.lt_or_ge addr.toNat s.cfg.memSize
    · refine ⟨_, _, exec_sta_of_inside hin, exec_sta_of_inside (h.memSize ▸ hin), ?_, .inr ⟨rfl, rfl⟩⟩
      rw [h.mem, h.a]
      exact h.setMem _
    · exact ⟨_, _, exec_of_accessesOutside ⟨.inr rfl, hout⟩, exec_of_accessesOutside ⟨.inr rfl, h.memSize ▸ hout⟩,
        h.takeFault _, .inl rfl⟩
  | ldaAbs addr =>
    obtain hin | hout := Nat.lt_or_ge addr.toNat s.cfg.memSize
    · refine ⟨_, _, exec_ldaAbs_of_inside hin, exec_ldaAbs_of_inside (h.memSize ▸ hin), ?_, .inr ⟨rfl, rfl⟩⟩
      rw [h.mem]
      exact h.setA _
    · exact ⟨_, _, exec_of_accessesOutside ⟨.inl rfl, hout⟩, exec_of_accessesOutside ⟨.inl rfl, h.memSize ▸ hout⟩,
        h.takeFault _, .inl rfl⟩
  | add imm => exact ⟨_, _, rfl, rfl, h.a ▸ h.setA (s.a + imm), .inr ⟨rfl, rfl⟩⟩
  | sub imm => exact ⟨_, _, rfl, rfl, h.a ▸ h.setA (s.a - imm), .inr ⟨rfl, rfl⟩⟩
  | jmp addr => exact ⟨_, _, rfl, rfl, h.setPc addr, .inr ⟨rfl, rfl⟩⟩
  | jz addr =>
    rw [exec_jz, exec_jz, ← h.a]
    by_cases hz : s.a = 0
    · rw [if_pos hz, if_pos hz]
      exact ⟨_, _, rfl, rfl, h.setPc addr, .inr ⟨rfl, rfl⟩⟩
    · rw [if_neg hz, if_neg hz]
      exact ⟨s, u, rfl, rfl, h, .inr ⟨rfl, rfl⟩⟩
  | halt => exact ⟨_, _, rfl, rfl, h.setHalted true, .inr ⟨rfl, rfl⟩⟩

/-- One step of machines that agree leaves machines that agree (R110). -/
theorem step_congr {s u : State} (h : s.Agree u) :
    ∃ t v, step s = .next t ∧ step u = .next v ∧ t.Agree v ∧ State.LatchesAgree s u t v := by
  cases hrun : s.halted with
  | true =>
    exact ⟨s, u, step_of_halted s hrun, step_of_halted u (h.halted ▸ hrun), h, .inr ⟨rfl, rfl⟩⟩
  | false =>
    have hrun' : u.halted = false := h.halted ▸ hrun
    obtain ⟨i, p, hs, hu⟩ | ⟨f, p, hs, hu⟩ := fetchInstr_congr s u h.pc h.mem h.memSize h.opc
    · rw [step_of_value hrun hs, step_of_value hrun' hu]
      exact exec_congr i (h.setPc p)
    · exact ⟨_, _, step_of_raised hrun hs, step_of_raised hrun' hu, (h.setPc p).takeFault f, .inl rfl⟩

/-! ## The result of a step -/

theorem stepResult_of_halted {s : State} (h : s.halted = true) : stepResult s = .ok := if_pos h

/-- Settles O7: `step_of_halted` and `stepResult_of_halted`. -/
theorem haltedStepIsANoOp : Obligations.HaltedStepIsANoOp := fun s h =>
  ⟨step_of_halted s h, stepResult_of_halted h⟩

/-- The result that a step leaves in an empty latch. -/
def latchedResult : Option Fault → StepResult
  | none => .ok
  | some f => .fault f

theorem stepResult_of_step {s t : State} (hrun : s.halted = false) (h : step (s.setFault none) = .next t) :
    stepResult s = latchedResult t.fault := by
  rw [stepResult, hrun, h]
  cases hf : t.fault <;> simp [latchedResult, hf]

/-- Machines that agree return the same result (R110). -/
theorem stepResult_congr {s u : State} (h : s.Agree u) : stepResult s = stepResult u := by
  cases hrun : s.halted with
  | true => rw [stepResult_of_halted hrun, stepResult_of_halted (h.halted ▸ hrun)]
  | false =>
    obtain ⟨t, v, ht, hv, -, hlatch⟩ := step_congr (h.setFault none)
    have heq : t.fault = v.fault := hlatch.elim id fun ⟨ht', hv'⟩ => ht'.trans hv'.symm
    rw [stepResult_of_step hrun ht, stepResult_of_step (h.halted ▸ hrun) hv, heq]

/-- Whatever the latch holds, the same instruction is fetched. -/
theorem fetchInstr_setFault_of_value {s u : State} {i : Instr} (g : Option Fault) (h : fetchInstr s = .value i u) :
    ∃ p, fetchInstr (s.setFault g) = .value i ((s.setFault g).setPc p) := by
  obtain ⟨j, p, hs, hg⟩ | ⟨f, p, hs, -⟩ := fetchInstr_congr s (s.setFault g) rfl rfl rfl rfl <;>
    cases hs.symm.trans h
  exact ⟨p, hg⟩

/-- Whatever the latch holds, the fetch raises the same fault. -/
theorem fetchInstr_setFault_of_raised {s u : State} {f : Fault} (g : Option Fault) (h : fetchInstr s = .raised f u) :
    ∃ p, fetchInstr (s.setFault g) = .raised f ((s.setFault g).setPc p) := by
  obtain ⟨i, p, hs, -⟩ | ⟨f', p, hs, hg⟩ := fetchInstr_congr s (s.setFault g) rfl rfl rfl rfl <;>
    cases hs.symm.trans h
  exact ⟨p, hg⟩

section Running

variable {s u : State} {i : Instr} (hrun : s.halted = false)
include hrun

/-- A fault of the fetch is the result of the step (R108, R109). -/
theorem stepResult_of_raised {f : Fault} (h : fetchInstr s = .raised f u) : stepResult s = .fault f := by
  obtain ⟨p, hg⟩ := fetchInstr_setFault_of_raised none h
  exact stepResult_of_step hrun (step_of_raised hrun hg)

/-- The fault of an access outside Memory is the result of the step (R107, R109). -/
theorem stepResult_of_accessesOutside {addr : Addr} (h : fetchInstr s = .value i u)
    (hout : AccessesOutside s.cfg.memSize i addr) : stepResult s = .fault (.addressOutOfRange addr.toNat) := by
  obtain ⟨p, hg⟩ := fetchInstr_setFault_of_value none h
  exact stepResult_of_step hrun ((step_of_value (s := s.setFault none) hrun hg).trans (exec_of_accessesOutside hout))

/-- Every other instruction returns `Ok` (R109). -/
theorem stepResult_of_value (h : fetchInstr s = .value i u) (hin : ∀ addr, ¬AccessesOutside s.cfg.memSize i addr) :
    stepResult s = .ok := by
  obtain ⟨p, hg⟩ := fetchInstr_setFault_of_value none h
  obtain ⟨addr, hout, -⟩ | ⟨-, t, ht, hlatch, -⟩ := exec_fault_cases i ((s.setFault none).setPc p)
  · exact absurd hout (hin addr)
  · rw [stepResult_of_step hrun ((step_of_value (s := s.setFault none) hrun hg).trans ht), hlatch]
    rfl

end Running

/-- A step returns a fault exactly when the CPU runs and the fetch raises it, or the fetched instruction accesses Memory
outside its bounds. -/
theorem stepResult_eq_fault_iff (s : State) (f : Fault) :
    stepResult s = .fault f ↔ s.halted = false ∧ ((∃ u, fetchInstr s = .raised f u) ∨
      ∃ i u addr, fetchInstr s = .value i u ∧ AccessesOutside s.cfg.memSize i addr ∧
        f = .addressOutOfRange addr.toNat) := by
  constructor
  · intro h
    cases hrun : s.halted with
    | true => cases (stepResult_of_halted hrun).symm.trans h
    | false =>
      refine ⟨rfl, ?_⟩
      cases hf : fetchInstr s with
      | raised g u =>
        cases (stepResult_of_raised hrun hf).symm.trans h
        exact .inl ⟨u, rfl⟩
      | value i u =>
        by_cases hout : ∃ addr, AccessesOutside s.cfg.memSize i addr
        · obtain ⟨addr, hout⟩ := hout
          cases (stepResult_of_accessesOutside hrun hf hout).symm.trans h
          exact .inr ⟨i, u, addr, rfl, hout, rfl⟩
        · cases (stepResult_of_value hrun hf (not_exists.1 hout)).symm.trans h
  · rintro ⟨hrun, ⟨u, hf⟩ | ⟨i, u, addr, hf, hout, rfl⟩⟩
    · exact stepResult_of_raised hrun hf
    · exact stepResult_of_accessesOutside hrun hf hout

/-! ## Where each fault comes from -/

/-- The fetch raises `IllegalOpcode` exactly at an unassigned byte inside Memory (R104). -/
theorem fetchInstr_illegalOpcode_iff (s : State) (op : Byte) (p : Addr) :
    (∃ u, fetchInstr s = .raised (.illegalOpcode op p) u) ↔
      s.pc.toNat < s.cfg.memSize ∧ decodeOpcode s.cfg.opc (Memory.get s.mem s.pc.toNat) = .unknown op ∧ p = s.pc := by
  constructor
  · rintro ⟨u, hf⟩
    obtain ⟨-, e⟩ | ⟨hpc, b, hb, e⟩ | ⟨-, m, -, k, -, -, -, e⟩ | ⟨-, m, -, -, i, rest, -, e⟩ := fetchInstr_cases s <;>
      cases e.symm.trans hf
    exact ⟨hpc, hb, rfl⟩
  · rintro ⟨hpc, hb, rfl⟩
    exact ⟨_, fetchInstr_of_unknown hpc hb⟩

/-- Settles O9: only the fetch raises `IllegalOpcode`, where `fetchInstr_illegalOpcode_iff` says. -/
theorem illegalOpcodeIsReportedWithItsAddress : Obligations.IllegalOpcodeIsReportedWithItsAddress := by
  intro s op p
  have hno : ¬∃ i u addr, fetchInstr s = .value i u ∧ AccessesOutside s.cfg.memSize i addr ∧
      Fault.illegalOpcode op p = .addressOutOfRange addr.toNat := by
    rintro ⟨_, _, _, -, -, ⟨⟩⟩
  rw [stepResult_eq_fault_iff, or_iff_left hno, fetchInstr_illegalOpcode_iff, decodeOpcode_eq_unknown_iff]
  constructor
  · rintro ⟨hrun, hpc, ⟨rfl, hne⟩, rfl⟩
    exact ⟨hrun, hpc, rfl, hne, rfl⟩
  · rintro ⟨hrun, hpc, rfl, hne, rfl⟩
    exact ⟨hrun, hpc, ⟨rfl, hne⟩, rfl⟩

/-- The fetch raises `AddressOutOfRange` exactly at the first byte of the instruction that lies outside Memory (R107,
R215). -/
theorem fetchInstr_addressOutOfRange_iff (s : State) (x : Int) :
    (∃ u, fetchInstr s = .raised (.addressOutOfRange x) u) ↔
      (s.cfg.memSize ≤ s.pc.toNat ∧ x = s.pc.toNat) ∨
      (s.pc.toNat < s.cfg.memSize ∧ ∃ m, decodeOpcode s.cfg.opc (Memory.get s.mem s.pc.toNat) = .known m ∧
        ∃ k, 1 ≤ k ∧ k < m.form.length ∧ s.FirstOutside k ∧ x = s.fetchAddress k) := by
  constructor
  · rintro ⟨u, hf⟩
    obtain ⟨hpc, e⟩ | ⟨-, b, -, e⟩ | ⟨hpc, m, hm, k, h1, hk, hout, e⟩ | ⟨-, m, -, -, i, rest, -, e⟩ :=
      fetchInstr_cases s <;> cases e.symm.trans hf
    · exact .inl ⟨hpc, rfl⟩
    · exact .inr ⟨hpc, m, hm, k, h1, hk, hout, rfl⟩
  · rintro (⟨hpc, rfl⟩ | ⟨hpc, m, hm, k, h1, hk, hout, rfl⟩)
    · exact ⟨_, fetchInstr_of_pc_outside hpc⟩
    · exact ⟨_, (fetchInstr_of_known hpc hm).trans (fetchOperands_of_firstOutside h1 hk hout)⟩

/-- The address that the two bytes after the opcode byte assemble to (R83). -/
def State.operandAddr (s : State) : Addr :=
  joinAddr (Memory.get s.mem (s.fetchAddress 1)) (Memory.get s.mem (s.fetchAddress 2))

/-- The operands of `m` at `PC` are an access outside Memory exactly when `m` is `LDA addr` or `STA addr` and the
address they assemble to lies outside. -/
theorem accessesOutside_iff {s : State} {m : Mnemonic} {i : Instr} {rest : List Byte}
    (h : decodeOperands m.form s.operandBytes = .instr i rest) (size : Nat) (addr : Addr) :
    AccessesOutside size i addr ↔ (m = .ldaAbs ∨ m = .sta) ∧ addr = s.operandAddr ∧ size ≤ addr.toNat := by
  constructor
  · rintro ⟨rfl | rfl, hout⟩ <;> obtain rfl := mnemonic_of_decodeOperands h <;> cases h
    · exact ⟨.inl rfl, rfl, hout⟩
    · exact ⟨.inr rfl, rfl, hout⟩
  · rintro ⟨rfl | rfl, rfl, hout⟩ <;> cases h
    · exact ⟨.inl rfl, hout⟩
    · exact ⟨.inr rfl, hout⟩

/-- The step fetches an access outside Memory exactly when it is a whole `LDA addr` or `STA addr` of such an address. -/
theorem fetchInstr_accessesOutside_iff (s : State) (addr : Addr) :
    (∃ i u, fetchInstr s = .value i u ∧ AccessesOutside s.cfg.memSize i addr) ↔
      s.pc.toNat < s.cfg.memSize ∧ ∃ m, decodeOpcode s.cfg.opc (Memory.get s.mem s.pc.toNat) = .known m ∧
        (m = .ldaAbs ∨ m = .sta) ∧ s.Inside 3 ∧ addr = s.operandAddr ∧ s.cfg.memSize ≤ addr.toNat := by
  have hlen {m : Mnemonic} (hm : m = .ldaAbs ∨ m = .sta) : m.form.length = 3 := by
    obtain rfl | rfl := hm <;> rfl
  constructor
  · rintro ⟨i, u, hf, hacc⟩
    obtain ⟨-, e⟩ | ⟨-, b, -, e⟩ | ⟨-, m, -, k, -, -, -, e⟩ | ⟨hpc, m, hop, hin, j, rest, hops, e⟩ :=
      fetchInstr_cases s <;> cases e.symm.trans hf
    obtain ⟨hm, haddr, hout⟩ := (accessesOutside_iff hops _ addr).1 hacc
    exact ⟨hpc, m, hop, hm, hlen hm ▸ hin, haddr, hout⟩
  · rintro ⟨hpc, m, hop, hm, hin, hacc⟩
    obtain ⟨i, rest, hops, e⟩ := fetchOperands_of_inside (hlen hm ▸ hin)
    exact ⟨i, _, (fetchInstr_of_known hpc hop).trans e, (accessesOutside_iff hops _ addr).2 ⟨hm, hacc⟩⟩

/-- An address is that of the operand bytes exactly when it is `hi*256 + lo` of them. -/
theorem eq_operandAddr_iff (s : State) (addr : Addr) :
    addr = s.operandAddr ↔ addr.toNat = (Memory.get s.mem (s.fetchAddress 1)).toNat * 256 +
      (Memory.get s.mem (s.fetchAddress 2)).toNat := by
  rw [← joinAddr_toNat]
  exact BitVec.toNat_inj.symm

/-- Settles O10: the fetch's places by `fetchInstr_addressOutOfRange_iff`, the accesses' by
`fetchInstr_accessesOutside_iff`. -/
theorem addressFaultIsReportedInItsFourPlaces : Obligations.AddressFaultIsReportedInItsFourPlaces := by
  intro s x
  rw [stepResult_eq_fault_iff, fetchInstr_addressOutOfRange_iff]
  refine and_congr_right fun _ => ⟨?_, ?_⟩
  · rintro ((hpc | ⟨hpc, m, hop, k, h1, hk, ⟨hin, hout⟩, hx⟩) | ⟨i, u, addr, hf, hacc, ⟨⟩⟩)
    · exact .inl hpc
    · exact .inr ⟨hpc, m, hop, .inl ⟨k, h1, hk, hin, hout, hx⟩⟩
    · obtain ⟨hpc, m, hop, hm, hin, haddr, hout⟩ := (fetchInstr_accessesOutside_iff s addr).1 ⟨i, u, hf, hacc⟩
      exact .inr ⟨hpc, m, hop, .inr ⟨hm, hin, addr, (eq_operandAddr_iff s addr).1 haddr, hout, rfl⟩⟩
  · rintro (hpc | ⟨hpc, m, hop, ⟨k, h1, hk, hin, hout, hx⟩ | ⟨hm, hin, addr, haddr, hout, rfl⟩⟩)
    · exact .inl (.inl hpc)
    · exact .inl (.inr ⟨hpc, m, hop, k, h1, hk, ⟨hin, hout⟩, hx⟩)
    · obtain ⟨i, u, hf, hacc⟩ := (fetchInstr_accessesOutside_iff s addr).2
        ⟨hpc, m, hop, hm, hin, (eq_operandAddr_iff s addr).2 haddr, hout⟩
      exact .inr ⟨i, u, addr, hf, hacc, rfl⟩

/-- Settles O12: a fault of the fetch, a fault of the access, or an instruction that halts only if it is `HALT`. -/
theorem runningCpuHaltsOnlyByHaltOrFault : Obligations.RunningCpuHaltsOnlyByHaltOrFault := by
  intro s hrun
  cases hf : fetchInstr s with
  | raised f u => exact ⟨_, step_of_raised hrun hf, iff_of_true rfl (.inl ⟨f, stepResult_of_raised hrun hf⟩)⟩
  | value i u =>
    have hu := fetchInstr_value_frame hf
    have hcfg : u.cfg = s.cfg := by rw [hu, State.setPc_cfg]
    have huhalted : u.halted = false := by rw [hu, State.setPc_halted, hrun]
    rw [step_of_value hrun hf]
    obtain ⟨addr, hout, e⟩ | ⟨hin, t, e, -, hhalt⟩ := exec_fault_cases i u
    · exact ⟨_, e, iff_of_true rfl (.inl ⟨_, stepResult_of_accessesOutside hrun hf (hcfg ▸ hout)⟩)⟩
    · refine ⟨t, e, ?_⟩
      rw [hhalt, huhalted, stepResult_of_value hrun hf (hcfg ▸ hin)]
      simp

/-! ## Any number of steps -/

theorem run_succ {s t : State} (n : Nat) (h : step s = .next t) :
    Host.Core.run Sys2Proof.core (n + 1) s = Host.Core.run Sys2Proof.core n t := by
  have hcore : Sys2Proof.core.step s = .next t := h
  simp only [Host.Core.run, hcore]

/-- Settles O8: by induction on the number of steps, each of which answers a next state (`step_next`). -/
theorem anyNumberOfStepsAnswersNext : Obligations.AnyNumberOfStepsAnswersNext := by
  intro n
  induction n with
  | zero => exact fun s => ⟨s, rfl⟩
  | succ n ih =>
    intro s
    obtain ⟨t, ht⟩ := step_next s
    rw [run_succ n ht]
    exact ih t

/-- Machines that agree run through states that agree (R110). -/
theorem run_congr (n : Nat) {s u : State} (h : s.Agree u) :
    ∃ t v : State, Host.Core.run Sys2Proof.core n s = .next t ∧ Host.Core.run Sys2Proof.core n u = .next v ∧
      t.Agree v ∧ State.LatchesAgree s u t v := by
  induction n generalizing s u with
  | zero => exact ⟨s, u, rfl, rfl, h, .inr ⟨rfl, rfl⟩⟩
  | succ n ih =>
    obtain ⟨s', u', hs, hu, hagree, hlatch⟩ := step_congr h
    obtain ⟨t, v, ht, hv, hagree', hlatch'⟩ := ih hagree
    exact ⟨t, v, (run_succ n hs).trans ht, (run_succ n hu).trans hv, hagree', hlatch.trans hlatch'⟩

/-- Settles O13: `run_congr` and, for the next step's result, `stepResult_congr`. -/
theorem stepReadsOnlyTheCpuAndMemory : Obligations.StepReadsOnlyTheCpuAndMemory := by
  intro n s u hpc ha hhalted hmem hsize hopc
  obtain ⟨t, v, ht, hv, hagree, hlatch⟩ := run_congr n ⟨hpc, ha, hhalted, hmem, hsize, hopc⟩
  exact ⟨t, v, ht, hv, hagree.pc, hagree.a, hagree.halted, hagree.mem, stepResult_congr hagree, hlatch⟩

end Sys2Proof.Machine
end

section
/-! Data transfer (41_data_transfer.md): a step that is about to run an instruction runs it with `PC` past it, and what
the two loads and the store then leave (R120-R122). -/

namespace Sys2Proof.Machine

/-! ## The step over an encoded instruction -/

/-- The encoding has the length that the opcode fixes (R80, R90). -/
theorem length_encode (o : Opc) (i : Instr) : (encode o i).length = i.length := by
  obtain hm | ⟨mk, b, hm, hi⟩ | ⟨mk, addr, hm, hi⟩ := i.form_cases <;> rw [Instr.length, hm]
  · rw [encode_of_implied o hm]
    rfl
  · rw [hi, encode_of_immediate o hm]
    rfl
  · rw [hi, encode_of_absolute o hm]
    rfl

/-- No instruction is longer than the three bytes of `bytesAtPc` (R80). -/
theorem instr_length_le (i : Instr) : i.length ≤ 3 := by
  rw [Instr.length]
  cases i.mnemonic <;> decide

/-- Byte `k` from `PC` on is the cell that a fetch reads it from (R81). -/
theorem getElem_bytesAtPc (s : State) (k : Nat) (hk : k < (bytesAtPc s).length) :
    (bytesAtPc s)[k] = Memory.get s.mem (s.fetchAddress k) := by
  match k, hk with
  | 0, _ =>
    rw [State.fetchAddress_zero]
    rfl
  | 1, _ => rfl
  | 2, _ => rfl

/-- The bytes at `PC` of a state that is about to run `i` begin with the encoding of `i`. -/
theorem State.IsAbout.encode_prefix {s : State} {i : Instr} (h : s.IsAbout i) :
    encode s.cfg.opc i <+: bytesAtPc s := by
  obtain ⟨-, -, hbytes⟩ := h
  refine List.prefix_iff_getElem.2 ⟨(length_encode _ i).trans_le (instr_length_le i), fun k hk => ?_⟩
  rw [getElem_bytesAtPc]
  exact (hbytes k hk).2.symm

/-- All bytes of the instruction that a state is about to run lie in Memory. -/
theorem State.IsAbout.inside {s : State} {i : Instr} (h : s.IsAbout i) : s.Inside i.length := by
  obtain ⟨-, -, hbytes⟩ := h
  exact fun k hk => (hbytes k (hk.trans_eq (length_encode _ i).symm)).1

/-- A state that is about to run `i` runs it, with `PC` past it (R81, R100). -/
theorem step_of_isAbout {s : State} {i : Instr} (h : s.IsAbout i) : step s = exec i (s.advance i.length) := by
  have ⟨hrun, hopc, _⟩ := h
  obtain ⟨rest, hrest⟩ := h.encode_prefix
  refine stepRunsTheDecodedInstruction s i rest hrun h.inside ?_
  rw [← hrest]
  exact decodeInvertsEncode _ hopc i rest

/-! ## The statements -/

theorem exec_ldaImm (imm : Byte) (s : State) : exec (.ldaImm imm) s = .next (s.setA imm) := rfl

/-- Settles O18: `exec_ldaImm`, from `s` and from `s` with `PC` past the two bytes. -/
theorem loadImmediateWritesA : Obligations.LoadImmediateWritesA := by
  refine ⟨fun s imm => ⟨_, exec_ldaImm imm s, rfl, rfl⟩, fun s imm h => ?_⟩
  exact ⟨_, (step_of_isAbout h).trans (exec_ldaImm imm _), rfl, rfl⟩

/-- Settles O19: the load by `exec_ldaAbs_of_inside`, from `s` and from `s` with `PC` past the three bytes. -/
theorem loadAbsoluteReadsTheCell : Obligations.LoadAbsoluteReadsTheCell := by
  refine ⟨fun s addr hin => ⟨_, exec_ldaAbs_of_inside hin, rfl, rfl⟩, fun s addr h hin => ?_⟩
  exact ⟨_, (step_of_isAbout h).trans (exec_ldaAbs_of_inside hin), rfl, rfl⟩

/-- Settles O20: the store by `exec_sta_of_inside`, read back by `Memory.get_set_eq` and `Memory.get_set_ne`. -/
theorem storeAbsoluteWritesTheCell : Obligations.StoreAbsoluteWritesTheCell := by
  refine ⟨fun s addr hm hin => ⟨_, exec_sta_of_inside hin, ?_⟩,
    fun s addr hm h hin => ⟨_, (step_of_isAbout h).trans (exec_sta_of_inside hin), ?_⟩⟩ <;>
  exact ⟨Memory.get_set_eq s.mem _ s.a hm, fun x hx => Memory.get_set_ne s.mem _ s.a x hx, rfl⟩

end Sys2Proof.Machine
end

section
/-! Arithmetic (42_arithmetic.md): the sum and the difference of `A` and an immediate, unsigned (R130, R131) and signed
(R132). -/

namespace Sys2Proof.Machine

/-! ## Sums and differences of bytes -/

theorem exec_add (imm : Byte) (s : State) : exec (.add imm) s = .next (s.setA (s.a + imm)) := rfl

theorem exec_sub (imm : Byte) (s : State) : exec (.sub imm) s = .next (s.setA (s.a - imm)) := rfl

/-- The difference of two bytes is the mathematical remainder, which is never negative (R131). -/
theorem byte_toNat_sub (x y : Byte) : ((x - y).toNat : Int) = ((x.toNat : Int) - y.toNat) % 256 := by
  rw [BitVec.toNat_sub]
  omega

/-- Adding R131's `(256 - imm) mod 256` is adding the two's complement of `imm`. -/
theorem byte_ofNat_eq_neg (y : Byte) : BitVec.ofNat 8 ((256 - y.toNat) % 256) = -y := by
  apply BitVec.eq_of_toNat_eq
  rw [BitVec.toNat_ofNat, BitVec.toNat_neg]
  exact Nat.mod_mod _ _

/-! ## The statements -/

/-- Settles O22: `exec_add`, from `s` and from `s` with `PC` past the two bytes. -/
theorem addImmediateWrapsModulo256 : Obligations.AddImmediateWrapsModulo256 := by
  refine ⟨fun s imm => ⟨_, exec_add imm s, BitVec.toNat_add s.a imm, rfl⟩, fun s imm h => ?_⟩
  exact ⟨_, (step_of_isAbout h).trans (exec_add imm _), BitVec.toNat_add s.a imm, rfl⟩

/-- Settles O23: `exec_sub` with `byte_toNat_sub`, and subtraction as the addition of the two's complement. -/
theorem subImmediateWrapsModulo256 : Obligations.SubImmediateWrapsModulo256 := by
  refine ⟨fun s imm => ⟨_, exec_sub imm s, byte_toNat_sub s.a imm, rfl⟩, fun s imm h => ?_, fun s imm => ?_⟩
  · exact ⟨_, (step_of_isAbout h).trans (exec_sub imm _), byte_toNat_sub s.a imm, rfl⟩
  · rw [exec_sub, exec_add, byte_ofNat_eq_neg, BitVec.sub_eq_add_neg]

/-- Settles O24: the signed result is the exact one brought into a byte's signed range by a multiple of 256. -/
theorem arithmeticIgnoresSignedness : Obligations.ArithmeticIgnoresSignedness := by
  refine fun s imm => ⟨_, _, exec_add imm s, exec_sub imm s, ?_, ?_⟩
  · exact (congrArg (· % 256) (BitVec.toInt_add s.a imm)).trans Int.bmod_emod
  · exact (congrArg (· % 256) BitVec.toInt_sub).trans Int.bmod_emod

end Sys2Proof.Machine
end

section
/-! Control flow (43_control.md): `NOP`, the two jumps and `HALT`, as executed and as stepped over, and what follows a
jump to a target outside Memory (R140-R146). -/

namespace Sys2Proof.Machine

/-! ## Instructions by case -/

theorem exec_nop (s : State) : exec .nop s = .next s := rfl

theorem exec_jmp (addr : Addr) (s : State) : exec (.jmp addr) s = .next (s.setPc addr) := rfl

theorem exec_halt (s : State) : exec .halt s = .next (s.setHalted true) := rfl

/-- `JZ` taken is `JMP` (R143). -/
theorem exec_jz_taken (addr : Addr) {s : State} (ha : s.a = 0) : exec (.jz addr) s = .next (s.setPc addr) := by
  rw [exec_jz, if_pos ha]

/-- Taken or not, `JZ` is one write to `PC`, of the target or of what `PC` already holds (R143). -/
theorem exec_jz_eq_setPc (addr : Addr) (s : State) :
    exec (.jz addr) s = .next (s.setPc (if s.a.toNat = 0 then addr else s.pc)) := by
  have htest : s.a.toNat = 0 ↔ s.a = 0 := BitVec.toNat_inj (y := 0)
  by_cases ha : s.a = 0
  · rw [exec_jz_taken addr ha, if_pos (htest.2 ha)]
  · rw [exec_jz, if_neg ha, if_neg (mt htest.1 ha)]
    rfl

/-! ## Fetches outside Memory -/

/-- With `PC` outside Memory the step returns the fault of its opcode fetch (R107, R141). -/
theorem stepResult_of_pc_outside {s : State} (hrun : s.halted = false) (h : s.cfg.memSize ≤ s.pc.toNat) :
    stepResult s = .fault (.addressOutOfRange s.pc.toNat) :=
  stepResult_of_raised hrun (fetchInstr_of_pc_outside h)

/-- After an assigned opcode byte the step returns the fault of the first operand byte outside Memory: no operand is
skipped, whatever the instruction would do with it (R103, R215). -/
theorem stepResult_of_operand_outside {s : State} {m : Mnemonic} {k : Nat} (hrun : s.halted = false)
    (hm : decodeOpcode s.cfg.opc (Memory.get s.mem s.pc.toNat) = .known m) (h1 : 1 ≤ k) (hk : k < m.form.length)
    (h : s.FirstOutside k) : stepResult s = .fault (.addressOutOfRange (s.fetchAddress k)) := by
  have hpc : s.pc.toNat < s.cfg.memSize := s.fetchAddress_zero ▸ h.1 0 h1
  exact stepResult_of_raised hrun ((fetchInstr_of_known hpc hm).trans (fetchOperands_of_firstOutside h1 hk h))

/-! ## The statements -/

/-- Settles O17: `exec_nop`, from `s` and from `s` with `PC` past the byte. -/
theorem nopHasNoEffect : Obligations.NopHasNoEffect :=
  ⟨exec_nop, fun _ h => (step_of_isAbout h).trans (exec_nop _)⟩

/-- Settles O25: `exec_jmp`, which overwrites the `PC` that the fetches advanced. -/
theorem jumpWritesPc : Obligations.JumpWritesPc :=
  ⟨fun s addr => ⟨_, exec_jmp addr s, rfl, rfl⟩, fun _ addr h => (step_of_isAbout h).trans (exec_jmp addr _)⟩

/-- Settles O26: `exec_jz_eq_setPc`, from `s` and from `s` with `PC` past the three bytes; the operand fetches by
`stepResult_of_operand_outside`, in which `A` has no part. -/
theorem jumpIfZeroTestsA : Obligations.JumpIfZeroTestsA := by
  refine ⟨fun s addr => ⟨_, exec_jz_eq_setPc addr s, rfl, rfl⟩, fun s addr h => ?_,
    fun s k hrun hjz h1 hk hin hout => ?_⟩
  · exact ⟨_, (step_of_isAbout h).trans (exec_jz_eq_setPc addr _), rfl, rfl⟩
  · exact stepResult_of_operand_outside hrun hjz h1 (Nat.lt_succ_of_le hk) ⟨hin, hout⟩

/-- Settles O27: both jumps leave `s.setPc addr`, where `stepResult_of_pc_outside` applies. -/
theorem jumpOutsideMemoryFaultsAtTheNextFetch : Obligations.JumpOutsideMemoryFaultsAtTheNextFetch := by
  intro s addr hrun hout
  have hnext : stepResult (s.setPc addr) = .fault (.addressOutOfRange addr.toNat) :=
    stepResult_of_pc_outside (s := s.setPc addr) hrun hout
  exact ⟨⟨_, exec_jmp addr s, hrun, rfl, hnext⟩, fun ha => ⟨_, exec_jz_taken addr ha, hrun, rfl, hnext⟩⟩

/-- Settles O28: `exec_halt`, from `s` and from `s` with `PC` past the byte; the step after it starts halted. -/
theorem haltSetsHalted : Obligations.HaltSetsHalted := by
  refine ⟨fun s => ⟨_, exec_halt s, rfl, rfl⟩, fun s h => ?_⟩
  exact ⟨_, (step_of_isAbout h).trans (exec_halt _), rfl, step_of_halted _ rfl, stepResult_of_halted rfl⟩

end Sys2Proof.Machine
end

section
/-! The Video Surface (44_video_surface.md): which cells each drawing operation visits, so which it paints (R162-R167), and
that only drawing writes the back buffer, `present` copies it, and no device operation fails (R168-R170, R196). -/

namespace Sys2Proof.Machine

/-! ## The cells of a shape -/

/-- The cells of `fill_rect` are the surface cells of the rectangle (R164). -/
theorem mem_fillCells (c : Config) (x y w h cx cy : Int) :
    (cx, cy) ∈ fillCells c x y w h ↔ inSurface c cx cy ∧ x ≤ cx ∧ cx < x + w ∧ y ≤ cy ∧ cy < y + h := by
  simp only [fillCells, List.mem_flatMap, List.mem_map, mem_intRange, Prod.mk.injEq]
  constructor
  · rintro ⟨yy, hy, xx, hx, rfl, rfl⟩
    omega
  · rintro ⟨hin, hrect⟩
    exact ⟨cy, by omega, cx, by omega, rfl, rfl⟩

/-- The cells of `draw_rect` are those of the unclipped rectangle on its first or last row or column (R165, D14). -/
theorem mem_borderCells (x y w h cx cy : Int) :
    (cx, cy) ∈ borderCells x y w h ↔ (x ≤ cx ∧ cx < x + w ∧ y ≤ cy ∧ cy < y + h) ∧
      (cx = x ∨ cx = x + w - 1 ∨ cy = y ∨ cy = y + h - 1) := by
  unfold borderCells
  split
  · simp only [List.not_mem_nil, false_iff]
    omega
  · simp only [List.mem_append, List.mem_flatMap, mem_intRange, List.mem_cons, List.not_mem_nil, or_false, Prod.mk.injEq]
    constructor
    · rintro (⟨i, hi, hrow⟩ | ⟨j, hj, hcol⟩) <;> omega
    · rintro ⟨hrect, hleft | hright | hrow⟩
      · exact .inr ⟨cy - y, by omega, by omega⟩
      · exact .inr ⟨cy - y, by omega, by omega⟩
      · exact .inl ⟨cx - x, by omega, by omega⟩

/-- The cells of a glyph are those under its 1 bits (R166, D13). -/
theorem mem_glyphCells (g : Glyph) (x y cx cy : Int) :
    (cx, cy) ∈ glyphCells g x y ↔ ∃ (row : Fin 7) (col : Fin 5),
      g[row][col] = true ∧ cx = x + (col.val : Int) ∧ cy = y + (row.val : Int) := by
  simp only [glyphCells, List.mem_flatMap, List.mem_map, List.mem_filter, List.mem_finRange, true_and, Prod.mk.injEq,
    eq_comm (a := cx), eq_comm (a := cy)]

/-- The cells of a text are those under its glyphs (R166): the head is glyph 0, and glyph `k` of the tail, which stands 6
pixels to the right, is glyph `k + 1`. -/
theorem mem_textCells (cfg : Config) (x y : Int) (text : List CodePoint) (cx cy : Int) :
    (cx, cy) ∈ textCells cfg x y text ↔ ∃ (k : Nat) (h : k < text.length),
      (cx, cy) ∈ glyphCells (glyph cfg text[k]) (x + 6 * (k : Int)) y := by
  induction text generalizing x with
  | nil => simp [textCells]
  | cons c cs ih =>
    have hshift (k : Nat) : x + 6 + 6 * (k : Int) = x + 6 * ((k + 1 : Nat) : Int) := by omega
    rw [textCells, List.mem_append, ih]
    constructor
    · rintro (h | ⟨k, hk, h⟩)
      · exact ⟨0, Nat.succ_pos _, by simpa using h⟩
      · exact ⟨k + 1, Nat.succ_lt_succ hk, hshift k ▸ h⟩
    · rintro ⟨_ | k, hk, h⟩
      · exact .inl (by simpa using h)
      · exact .inr ⟨k, Nat.lt_of_succ_lt_succ hk, (hshift k).symm ▸ h⟩

/-! ## Glyphs -/

theorem glyph_of_mapped {cfg : Config} {c : CodePoint} {g : Glyph} (h : cfg.font.lookup (foldCase c) = some g) :
    glyph cfg c = g := by
  rw [glyph, h]

theorem glyph_of_unmapped {cfg : Config} {c : CodePoint} (h : cfg.font.lookup (foldCase c) = none) :
    glyph cfg c = (cfg.font.lookup space).getD blankGlyph := by
  rw [glyph, h]

/-- The lookup ignores the case of ASCII letters (R167). -/
theorem glyph_foldCase (cfg : Config) (c : CodePoint) : glyph cfg (foldCase c) = glyph cfg c := by
  rw [glyph, foldCase_foldCase, glyph]

/-- A space that the font does not map is blank like every other such character (log 18). -/
theorem glyph_space (cfg : Config) : glyph cfg space = (cfg.font.lookup space).getD blankGlyph := by
  have hfold : foldCase space = space := by decide
  cases h : cfg.font.lookup space with
  | some g => exact glyph_of_mapped (hfold.symm ▸ h)
  | none => rw [glyph_of_unmapped (hfold.symm ▸ h), h]

/-- A text is drawn from its glyphs only: characters may be replaced by others of the same glyph. -/
theorem textCells_map (cfg : Config) (f : CodePoint → CodePoint) (hf : ∀ c, glyph cfg (f c) = glyph cfg c) (x y : Int)
    (text : List CodePoint) : textCells cfg x y (text.map f) = textCells cfg x y text := by
  induction text generalizing x with
  | nil => rfl
  | cons c cs ih => rw [List.map_cons, textCells, hf, ih, textCells]

/-! ## Operations of the devices -/

/-- A drawing operation writes the back buffer only, and is done (R169, R170). -/
theorem transact_of_draws {op : HostOp} {s t : State} {r : HostResult} (hd : op.draws = true)
    (h : transact op s = .next (t, r)) : t = s.setBb t.bb ∧ r = .done := by
  obtain ⟨-, hnd, -⟩ | ⟨rfl, -⟩ | ⟨x, rfl, -⟩ | ⟨-, ht, hr, -⟩ | ⟨a, v, rfl, -⟩ | ⟨start, bytes, rfl | ⟨rfl, -⟩, -⟩ |
    ⟨c, rfl, -⟩ | ⟨bytes, base, rfl, -⟩ := transact_cases h
  · rw [hd] at hnd
    cases hnd
  · cases hd
  · cases hd
  · exact ⟨ht, hr⟩
  all_goals cases hd

/-- No operation but drawing writes the back buffer (R169). -/
theorem transact_bb_of_not_draws {op : HostOp} {s t : State} {r : HostResult} (hd : op.draws = false)
    (h : transact op s = .next (t, r)) : t.bb = s.bb := by
  obtain ⟨-, -, -, -, rfl⟩ | ⟨-, hstep, -⟩ | ⟨x, -, rfl, -⟩ | ⟨hdraws, -⟩ | ⟨a, v, -, -, rfl, -⟩ |
    ⟨start, bytes, -, -, -, rfl, -⟩ | ⟨c, -, hframe, -⟩ | ⟨bytes, base, -, hload, -⟩ := transact_cases h
  · rfl
  · exact (step_sameDevices hstep).2.1
  · rfl
  · rw [hd] at hdraws
    cases hdraws
  · rfl
  · rfl
  · rw [renderFrame_frame hframe, State.setChanged_bb, State.setGrid_bb, State.setSnap_bb]
  · obtain ⟨-, -, rfl⟩ := load_cases hload
    rfl

/-- Under the constraint of R9 `present` is a block store at `VRAM_START` (R168, R170). -/
theorem present_of_fits {s : State} (hfits : s.cfg.fits = true) (hbb : s.bb.length = s.cfg.pixels) :
    present s = .ok (s.setMem (Memory.setBlock s.mem s.cfg.vramStart s.bb)) := by
  obtain ⟨-, -, -, hregion⟩ := (fits_iff s.cfg).1 hfits
  exact writeBlock_of_fits s s.cfg.vramStart s.bb (by omega) (by omega)

/-- Under the constraint of R9 every read of `render_frame` is in range, so it succeeds (R196). -/
theorem renderFrame_of_fits {s : State} (hfits : s.cfg.fits = true) (hsnap : s.snap.length = s.cfg.pixels)
    (hgrid : s.grid.length = s.cfg.pixels) : ∃ t c, renderFrame s = .ok (t, c) := by
  obtain ⟨-, -, -, hregion⟩ := (fits_iff s.cfg).1 hfits
  have hlt {i : Nat} (hi : i ∈ List.range s.cfg.pixels) : i < s.cfg.pixels := List.mem_range.1 hi
  obtain ⟨t, c, ht, -⟩ := sampleCells_spec (List.range s.cfg.pixels) s false List.nodup_range
    (fun i hi => by have := hlt hi; omega) (fun i hi => hsnap ▸ hlt hi) (fun i hi => hgrid ▸ hlt hi)
  exact ⟨t.setChanged c, c, by rw [renderFrame, ht]⟩

/-! ## The statements -/

/-- Settles O38: every cell of `List.replicate`. -/
theorem clearFillsTheBackBuffer : Obligations.ClearFillsTheBackBuffer := fun _ index =>
  ⟨byteOfInt index, byteOfInt_toNat index, List.length_replicate, fun _ hi => List.getElem?_replicate_of_lt hi, rfl⟩

/-- Settles O39: `paint_cell` inside the surface. -/
theorem setPixelSetsOneCell : Obligations.SetPixelSetsOneCell := by
  intro s x y index hlen
  refine ⟨fun cx cy hx0 hx1 hy0 hy1 => ?_, fun hout => ?_, paint_frame _ s x y, paint_bb_length _ s x y⟩
  · exact paint_cell _ s x y cx cy hlen ⟨hx0, hx1, hy0, hy1⟩
  · exact if_neg (by omega)

/-- Settles O40: `paintAll_cell` with the cells of `mem_fillCells`. -/
theorem fillRectCoversTheClippedRectangle : Obligations.FillRectCoversTheClippedRectangle := by
  intro s x y w h index hlen
  refine ⟨fun cx cy hx0 hx1 hy0 hy1 => ?_, paintAll_frame _ _ s, paintAll_bb_length _ _ s⟩
  have hin : inSurface s.cfg cx cy := ⟨hx0, hx1, hy0, hy1⟩
  refine (paintAll_cell _ _ s cx cy hlen hin).trans (if_congr ?_ rfl rfl)
  rw [mem_fillCells, and_iff_right hin]

/-- Settles O41: `paintAll_cell` with the cells of `mem_borderCells`. -/
theorem drawRectPaintsTheUnclippedBorder : Obligations.DrawRectPaintsTheUnclippedBorder := by
  intro s x y w h index hlen
  refine ⟨fun cx cy hx0 hx1 hy0 hy1 => ?_, paintAll_frame _ _ s, paintAll_bb_length _ _ s⟩
  exact (paintAll_cell _ _ s cx cy hlen ⟨hx0, hx1, hy0, hy1⟩).trans
    (if_congr (mem_borderCells x y w h cx cy) rfl rfl)

/-- Settles O42: `paintAll_cell` with the cells of `mem_textCells`, each under a 1 bit by `mem_glyphCells`. -/
theorem drawTextPaintsTheGlyphBits : Obligations.DrawTextPaintsTheGlyphBits := by
  intro s x y index text hlen
  refine ⟨fun cx cy hx0 hx1 hy0 hy1 => ?_, paintAll_frame _ _ s, paintAll_bb_length _ _ s⟩
  have hcell := paintAll_cell (byteOfInt index) (textCells s.cfg x y text) s cx cy hlen ⟨hx0, hx1, hy0, hy1⟩
  simp only [mem_textCells, mem_glyphCells] at hcell
  refine ⟨fun hbit => hcell.trans (if_pos hbit), fun hnone => hcell.trans (if_neg ?_)⟩
  rintro ⟨k, hk, row, col, hbit, hpos⟩
  exact hnone k hk row col hbit hpos

/-- Settles O43: the glyph by cases of the lookup; a text with its unmapped characters replaced has the same glyphs,
whatever the font maps the space to. -/
theorem glyphLookupFoldsCaseAndFallsBackToSpace : Obligations.GlyphLookupFoldsCaseAndFallsBackToSpace := by
  refine ⟨fun cfg c => ?_, fun cfg c h0 h1 => ?_, fun s x y index text _ => ?_⟩
  · refine ⟨foldCase c, foldCase_val c, fun g => glyph_of_mapped, fun hnone g hspace => ?_⟩
    rw [glyph_of_unmapped hnone, show cfg.font.lookup space = some g from hspace, Option.getD_some]
  · exact ⟨foldCase c, (foldCase_val c).trans (if_pos ⟨h0, h1⟩), (glyph_foldCase cfg c).symm⟩
  · rw [drawText, drawText, textCells_map]
    intro c
    split
    · rename_i hnone
      rw [glyph_space, glyph_of_unmapped hnone]
    · rfl

/-- Settles O44: every operation is answered, by `transact_of_draws` or `transact_bb_of_not_draws`. -/
theorem onlyDrawingWritesTheBackBuffer : Obligations.OnlyDrawingWritesTheBackBuffer := by
  intro op s
  obtain ⟨t, r, h⟩ := transact_next op s
  exact ⟨t, r, h, fun hd => transact_of_draws hd h, fun hd => transact_bb_of_not_draws hd h⟩

/-- Settles O45: the block store of `present_of_fits`, read inside and outside its range. -/
theorem presentCopiesTheBackBuffer : Obligations.PresentCopiesTheBackBuffer := by
  intro s hfits hmem hbb
  refine ⟨_, present_of_fits hfits hbb, fun i hi => ?_, fun a ha => ?_, rfl⟩
  · have hi : i < s.bb.length := hbb.symm ▸ hi
    rw [State.setMem_mem, Memory.get_setBlock_inside s.bb s.mem _ i hmem hi, List.getElem?_eq_getElem hi]
  · exact Memory.get_setBlock_outside s.bb s.mem _ a (hbb.symm ▸ ha)

/-- Settles O50: drawing is done, `present` and `render_frame` succeed under the invariant. -/
theorem devicesNeverFault : Obligations.DevicesNeverFault := by
  intro op s hs hdev
  have ⟨hwf, _, _, hbb, hsnap, hgrid, _⟩ := hs
  have hfits := fits_of_wf s.cfg hwf
  rw [HostOp.ofDevice, Bool.or_eq_true, Bool.or_eq_true, beq_iff_eq, beq_iff_eq] at hdev
  obtain (hdraws | rfl) | rfl := hdev
  · obtain ⟨t, r, h⟩ := transact_next op s
    obtain ⟨-, rfl⟩ := transact_of_draws hdraws h
    exact ⟨t, .done, h, nofun⟩
  · exact ⟨_, .done, by rw [transact, present_of_fits hfits hbb, completed], nofun⟩
  · obtain ⟨t, c, h⟩ := renderFrame_of_fits hfits hsnap (by rw [hgrid, List.length_map, hsnap])
    exact ⟨t, .rendered c, by rw [transact, h, framed], nofun⟩

end Sys2Proof.Machine
end

section
/-! The Display Sampler (45_display_sampler.md): what a whole frame leaves in the snapshot, the grid and `CHANGED`, and
who writes them. -/

namespace Sys2Proof.Machine

/-! ## One frame -/

/-- Under the constraint of R9 every read of a frame is in Memory (R196). -/
theorem videoAddress_lt {c : Config} (hfits : c.fits = true) {i : Nat} (hi : i ∈ List.range c.pixels) :
    c.vramStart + i < c.memSize := by
  obtain ⟨-, -, -, hregion⟩ := (fits_iff c).1 hfits
  have := List.mem_range.1 hi
  omega

/-- Under the constraint of R9 a frame succeeds: every pixel is sampled, exactly the changed ones are recoloured, and
the result says whether there were any (R192). -/
theorem renderFrame_spec {s : State} (hfits : s.cfg.fits = true) (hsnap : s.snap.length = s.cfg.pixels)
    (hgrid : s.grid.length = s.cfg.pixels) :
    ∃ t c, renderFrame s = .ok (t, c) ∧
      (∀ i, i < s.cfg.pixels → t.snap[i]? = some (videoByte s i)) ∧
      (∀ i, i < s.cfg.pixels → t.grid[i]? =
        if s.snap[i]? = some (videoByte s i) then s.grid[i]? else some (paletteAt s.cfg (videoByte s i))) ∧
      (c = true ↔ ∃ i, i < s.cfg.pixels ∧ s.snap[i]? ≠ some (videoByte s i)) := by
  obtain ⟨t, c, ht, htsnap, htgrid, hc⟩ := sampleCells_spec (List.range s.cfg.pixels) s false List.nodup_range
    (fun _ => videoAddress_lt hfits) (fun _ hi => hsnap ▸ List.mem_range.1 hi) (fun _ hi => hgrid ▸ List.mem_range.1 hi)
  refine ⟨t.setChanged c, c, by rw [renderFrame, ht], fun i hi => ?_, fun i hi => ?_, ?_⟩
  · exact (htsnap i).trans (if_pos (List.mem_range.2 hi))
  · exact (htgrid i).trans ((if_congr (and_iff_right (List.mem_range.2 hi)) rfl rfl).trans (ite_not _ _ _))
  · simpa only [Bool.false_eq_true, false_or, List.mem_range] using hc

/-- A frame does not write the configuration (R35). -/
theorem renderFrame_cfg {s t : State} {c : Bool} (h : renderFrame s = .ok (t, c)) : t.cfg = s.cfg := by
  rw [renderFrame_frame h, State.setChanged_cfg, State.setGrid_cfg, State.setSnap_cfg]

/-- A frame holds its result in `CHANGED` (R192; D17). -/
theorem renderFrame_changed {s t : State} {c : Bool} (h : renderFrame s = .ok (t, c)) : t.changed = c :=
  congrArg State.changed (renderFrame_frame h)

/-- A frame does not write the video region. -/
theorem renderFrame_videoByte {s t : State} {c : Bool} (h : renderFrame s = .ok (t, c)) (i : Nat) :
    videoByte t i = videoByte s i := by
  rw [renderFrame_frame h]
  rfl

/-! ## A frame that finds nothing -/

/-- A scan of pixels that equal the snapshot writes nothing and finds no change. -/
theorem sampleCells_of_unchanged (is : List Nat) (s : State) (c : Bool)
    (hin : ∀ i ∈ is, s.cfg.vramStart + i < s.cfg.memSize) (hsame : ∀ i ∈ is, s.snap[i]? = some (videoByte s i)) :
    sampleCells is s c = .ok (s, c) := by
  induction is with
  | nil => rfl
  | cons i is ih =>
    rw [List.forall_mem_cons] at hin hsame
    have hi : sampleCell i s = .ok (s, false) := (sampleCell_of_valid s i hin.1).trans (if_pos hsame.1)
    simp only [sampleCells, hi, Bool.or_false, ih hin.2 hsame.2]

/-- When the snapshot equals the video region, a frame reports no change and writes `CHANGED` only (R192). -/
theorem renderFrame_of_unchanged {s : State} (hfits : s.cfg.fits = true)
    (hsame : ∀ i, i < s.cfg.pixels → s.snap[i]? = some (videoByte s i)) :
    renderFrame s = .ok (s.setChanged false, false) := by
  rw [renderFrame, sampleCells_of_unchanged _ s false (fun _ => videoAddress_lt hfits)
    (fun i hi => hsame i (List.mem_range.1 hi))]

/-! ## Under the invariant -/

/-- The grid has one colour per pixel (R31). -/
theorem State.Inv.grid_length {s : State} (h : s.Inv) : s.grid.length = s.cfg.pixels := by
  obtain ⟨-, -, -, -, hsnap, hgrid, -⟩ := h
  rw [hgrid, List.length_map, hsnap]

/-- A frame succeeds and leaves the snapshot equal to the video region (R192). -/
theorem State.Inv.renderFrame_snap {s : State} (h : s.Inv) :
    ∃ t c, renderFrame s = .ok (t, c) ∧ ∀ i, i < s.cfg.pixels → t.snap[i]? = some (videoByte s i) := by
  have ⟨hwf, _, _, _, hsnap, _⟩ := h
  obtain ⟨t, c, ht, htsnap, -⟩ := renderFrame_spec (fits_of_wf s.cfg hwf) hsnap h.grid_length
  exact ⟨t, c, ht, htsnap⟩

/-- `present` succeeds, copies the back buffer into the video region, and keeps the invariant (R168). -/
theorem State.Inv.present_videoByte {s : State} (h : s.Inv) :
    ∃ t, present s = .ok t ∧ t.Inv ∧ t.cfg = s.cfg ∧ ∀ i, i < s.cfg.pixels → s.bb[i]? = some (videoByte t i) := by
  have ⟨hwf, hmem, _, hbb, _⟩ := h
  obtain ⟨t, ht, hcopy, -, hframe⟩ := presentCopiesTheBackBuffer s (fits_of_wf s.cfg hwf) hmem hbb
  have htransact : transact .present s = .next (t, .done) := by rw [transact, ht, completed]
  have hcfg : t.cfg = s.cfg := transact_cfg htransact
  exact ⟨t, ht, transact_keeps_inv h htransact, hcfg, fun i hi => by rw [videoByte, hcfg, hcopy i hi]⟩

/-! ## Who writes the grid -/

/-- No operation but `render_frame` writes the grid or the snapshot (R194, R29). -/
theorem transact_grid_snap {op : HostOp} {s t : State} {r : HostResult} (hop : op ≠ .renderFrame)
    (h : transact op s = .next (t, r)) : t.grid = s.grid ∧ t.snap = s.snap := by
  obtain ⟨-, -, -, -, rfl⟩ | ⟨-, hstep, -⟩ | ⟨x, -, rfl, -⟩ | ⟨-, hdraw, -⟩ | ⟨a, v, -, -, rfl, -⟩ |
    ⟨start, bytes, -, -, -, rfl, -⟩ | ⟨c, hframe, -⟩ | ⟨bytes, base, -, hload, -⟩ := transact_cases h
  · exact ⟨rfl, rfl⟩
  · obtain ⟨-, -, hsnap, hgrid, -⟩ := step_sameDevices hstep
    exact ⟨hgrid, hsnap⟩
  · exact ⟨rfl, rfl⟩
  · rw [hdraw]
    exact ⟨rfl, rfl⟩
  · exact ⟨rfl, rfl⟩
  · exact ⟨rfl, rfl⟩
  · exact absurd hframe hop
  · obtain ⟨-, -, rfl⟩ := load_cases hload
    exact ⟨rfl, rfl⟩

/-! ## The statements -/

/-- Settles O46: `renderFrame_spec`, with the frame of `renderFrame_frame` and the 256 entries of a legal palette. -/
theorem renderFrameDiffsTheVideoRegion : Obligations.RenderFrameDiffsTheVideoRegion := by
  intro s hfits hsnap hgrid
  obtain ⟨t, c, h, htsnap, htgrid, hc⟩ := renderFrame_spec hfits hsnap hgrid
  have hchanged := renderFrame_changed h
  refine ⟨t, c, h, fun i hi => ⟨htsnap i hi, htgrid i hi⟩, hc, hchanged, ?_, fun hp v => ?_⟩
  · rw [hchanged]
    exact renderFrame_frame h
  · exact paletteAt_of_lt s.cfg v (palette_length _ hp ▸ v.isLt)

/-- Settles O47: the first frame leaves the snapshot equal to the region, and then `renderFrame_of_unchanged`. -/
theorem secondFrameReportsNoChange : Obligations.SecondFrameReportsNoChange := by
  intro s hs
  obtain ⟨t, c, h, hsnap⟩ := hs.renderFrame_snap
  have ⟨hwf, _⟩ := renderFrame_keeps_inv hs h
  refine ⟨t, c, h, renderFrame_changed h, renderFrame_of_unchanged (fits_of_wf t.cfg hwf) fun i hi => ?_⟩
  rw [renderFrame_videoByte h]
  exact hsnap i (renderFrame_cfg h ▸ hi)

/-- Settles O48: after both operations the snapshot is the back buffer, and the invariant makes the grid its image under
the palette. -/
theorem presentThenRenderShowsTheBackBuffer : Obligations.PresentThenRenderShowsTheBackBuffer := by
  intro s hs
  have ⟨_, _, _, hbb, _⟩ := hs
  obtain ⟨t, ht, htinv, htcfg, hcopy⟩ := hs.present_videoByte
  obtain ⟨u, c, hu, hsample⟩ := htinv.renderFrame_snap
  have hucfg : u.cfg = s.cfg := (renderFrame_cfg hu).trans htcfg
  obtain ⟨-, -, -, -, hlen, hgrid, -⟩ := renderFrame_keeps_inv htinv hu
  rw [htcfg] at hsample
  rw [hucfg] at hlen hgrid
  have hsnap : u.snap = s.bb := List.ext_getElem?' fun i hi => by
    rw [hlen, hbb, max_self] at hi
    rw [hsample i hi, hcopy i hi]
  exact ⟨t, u, c, ht, hu, hgrid.trans (by rw [hsnap])⟩

/-- Settles O49: the length by the invariant; every other operation is answered and is one of `transact_grid_snap`. -/
theorem onlyRenderFrameWritesTheGrid : Obligations.OnlyRenderFrameWritesTheGrid := by
  refine ⟨fun s hs => ⟨hs.grid_length, rfl⟩, fun op s hop => ?_⟩
  obtain ⟨t, r, h⟩ := transact_next op s
  exact ⟨t, r, h, transact_grid_snap hop h⟩

end Sys2Proof.Machine
end

section
/-! Exceptions (60_exceptions.md): what a faulting step leaves, that a failed operation of the host does nothing, and who
writes the CPU's registers and the latch (R210-R219, R226). -/

namespace Sys2Proof.Machine

/-! ## The step -/

/-- A faulting step takes its fault with only `PC` moved, whether the fetch or an absolute access raised it (R108). -/
theorem step_of_stepResult_fault {s : State} {f : Fault} (h : stepResult s = .fault f) :
    ∃ p, step s = .next (takeFault f (s.setPc p)) := by
  obtain ⟨hrun, ⟨u, hf⟩ | ⟨i, u, addr, hf, hout, rfl⟩⟩ := (stepResult_eq_fault_iff s f).1 h
  · have hu := fetchInstr_raised_frame hf
    exact ⟨u.pc, by rw [step_of_raised hrun hf, ← hu]⟩
  · have hu := fetchInstr_value_frame hf
    refine ⟨u.pc, ?_⟩
    rw [step_of_value hrun hf, hu]
    exact exec_of_accessesOutside hout

/-- A step that returns `Ok` leaves the latch alone (R25, R109). -/
theorem step_fault_of_stepResult_ok {s t : State} (hok : stepResult s = .ok) (h : step s = .next t) :
    t.fault = s.fault := by
  obtain ⟨-, rfl⟩ | ⟨hrun, f, u, hf, -⟩ | ⟨hrun, i, u, hf, he⟩ := step_cases h
  · rfl
  · cases (stepResult_of_raised hrun hf).symm.trans hok
  · have hu := fetchInstr_value_frame hf
    have hcfg : u.cfg = s.cfg := by rw [hu, State.setPc_cfg]
    obtain ⟨addr, hout, -⟩ | ⟨-, t', ht', hlatch, -⟩ := exec_fault_cases i u
    · cases (stepResult_of_accessesOutside hrun hf (hcfg ▸ hout)).symm.trans hok
    · obtain rfl := Host.Outcome.next.inj (he.symm.trans ht')
      rw [hlatch, hu, State.setPc_fault]

/-! ## The host's operations -/

/-- An operation that hands back an error leaves the state as it was (R210). -/
theorem transact_failed_eq {op : HostOp} {s t : State} {e : HostError} (h : transact op s = .next (t, .failed e)) :
    t = s := by
  obtain ⟨-, -, -, -, rfl⟩ | ⟨-, -, ⟨⟩⟩ | ⟨_, -, -, ⟨⟩⟩ | ⟨-, -, ⟨⟩, -⟩ | ⟨_, _, -, -, -, ⟨⟩⟩ |
    ⟨_, _, -, -, -, -, ⟨⟩⟩ | ⟨_, -, -, ⟨⟩⟩ | ⟨_, _, -, -, ⟨⟩⟩ := transact_cases h
  rfl

/-- `t` agrees with `s` on the CPU's registers and the latch (R21-R23, R25). -/
structure State.SameCpu (s t : State) : Prop where
  pc : t.pc = s.pc
  a : t.a = s.a
  halted : t.halted = s.halted
  fault : t.fault = s.fault

theorem State.SameCpu.refl (s : State) : s.SameCpu s := ⟨rfl, rfl, rfl, rfl⟩

/-- `reboot` and `load` are the two operations that reboot (R241, R243). -/
theorem HostOp.reboots_iff (op : HostOp) :
    op.reboots = true ↔ (∃ x, op = .reboot x) ∨ ∃ bytes base, op = .load bytes base := by
  cases op <;> simp [HostOp.reboots]

/-- A drawing operation is no step and reboots nothing. -/
theorem HostOp.not_step_nor_reboots_of_draws {op : HostOp} (h : op.draws = true) :
    op ≠ .step ∧ op.reboots = false := by
  refine ⟨?_, Bool.eq_false_iff.2 fun hr => ?_⟩
  · rintro rfl
    cases h
  · obtain ⟨x, rfl⟩ | ⟨bytes, base, rfl⟩ := op.reboots_iff.1 hr <;> cases h

/-- Everything a transaction can do to the CPU: nothing (a failed `load` included), a step, or a reboot. -/
theorem transact_cpu_cases {op : HostOp} {s t : State} {r : HostResult} (h : transact op s = .next (t, r)) :
    (op ≠ .step ∧ (op.reboots = true → r ≠ .done) ∧ s.SameCpu t) ∨
    (op = .step ∧ step s = .next t) ∨
    (op.reboots = true ∧ r = .done ∧ ∃ x u, t = reboot x u) := by
  obtain ⟨hstep, -, hreboot, hload, rfl⟩ | ⟨hop, hstep, -⟩ | ⟨x, rfl, rfl, rfl⟩ | ⟨hdraws, ht, -⟩ |
    ⟨a, v, rfl, -, rfl, -⟩ | ⟨start, bytes, hop, -, -, rfl, -⟩ | ⟨c, rfl, hframe, -⟩ |
    ⟨bytes, base, rfl, hload, rfl⟩ := transact_cases h
  · refine .inl ⟨hstep, fun hr => ?_, .refl t⟩
    obtain ⟨x, hx⟩ | ⟨bytes, base, hx⟩ := op.reboots_iff.1 hr
    · exact absurd hx (hreboot x)
    · obtain ⟨e, rfl⟩ := hload bytes base hx
      exact nofun
  · exact .inr (.inl ⟨hop, hstep⟩)
  · exact .inr (.inr ⟨rfl, rfl, x, s, rfl⟩)
  · obtain ⟨hne, hno⟩ := HostOp.not_step_nor_reboots_of_draws hdraws
    rw [hno, ht]
    exact .inl ⟨hne, nofun, rfl, rfl, rfl, rfl⟩
  · exact .inl ⟨nofun, nofun, rfl, rfl, rfl, rfl⟩
  · obtain rfl | ⟨rfl, -⟩ := hop <;> exact .inl ⟨nofun, nofun, rfl, rfl, rfl, rfl⟩
  · rw [renderFrame_frame hframe]
    exact .inl ⟨nofun, nofun, rfl, rfl, rfl, rfl⟩
  · obtain ⟨-, -, rfl⟩ := load_cases hload
    exact .inr (.inr ⟨rfl, rfl, base, _, rfl⟩)

/-! ## The statements -/

/-- Settles O11: `step_of_stepResult_fault`, whose state writes `PC`, `HALTED` and `FAULT` only. -/
theorem faultingStepRecordsHaltsAndIsPrecise : Obligations.FaultingStepRecordsHaltsAndIsPrecise := by
  intro s f h
  obtain ⟨p, hstep⟩ := step_of_stepResult_fault h
  exact ⟨_, hstep, rfl⟩

/-- Settles O54: the state after is the state before (`transact_failed_eq`), so the repetition is the same operation. -/
theorem failedHostOperationChangesNothing : Obligations.FailedHostOperationChangesNothing := by
  intro op s t e h
  obtain rfl := transact_failed_eq h
  exact ⟨rfl, h⟩

/-- Settles O55: by `transact_cpu_cases`; a step of a halted CPU does nothing, and a reboot is excluded. -/
theorem haltedIsLeftOnlyByReboot : Obligations.HaltedIsLeftOnlyByReboot := by
  intro op s hhalted hno
  obtain ⟨t, r, h⟩ := transact_next op s
  have hcpu : s.SameCpu t := by
    obtain ⟨-, -, hcpu⟩ | ⟨-, hstep⟩ | ⟨hreboots, -⟩ := transact_cpu_cases h
    · exact hcpu
    · obtain rfl := Host.Outcome.next.inj ((step_of_halted s hhalted).symm.trans hstep)
      exact .refl s
    · cases hno.symm.trans hreboots
  exact ⟨t, r, h, hcpu.halted.trans hhalted, hcpu.pc, hcpu.a, hcpu.fault⟩

/-- Settles O56: by `transact_cpu_cases`; a step writes the latch when it returns a fault and keeps it when it returns
`Ok`. -/
theorem onlyFaultsAndRebootWriteTheLatch : Obligations.OnlyFaultsAndRebootWriteTheLatch := by
  intro op s
  obtain ⟨t, r, h⟩ := transact_next op s
  refine ⟨t, r, h, ?_⟩
  obtain ⟨hne, hfailed, hcpu⟩ | ⟨rfl, hstep⟩ | ⟨hreboots, hr, x, u, rfl⟩ := transact_cpu_cases h
  · exact ⟨.inl hcpu.fault, fun _ hop => absurd hop hne, fun hreboots hr => absurd hr (hfailed hreboots)⟩
  · cases hresult : stepResult s with
    | ok => exact ⟨.inl (step_fault_of_stepResult_ok hresult hstep), nofun, nofun⟩
    | fault f =>
      obtain ⟨p, hfault⟩ := step_of_stepResult_fault hresult
      obtain rfl := Host.Outcome.next.inj (hfault.symm.trans hstep)
      refine ⟨.inr (.inl ⟨f, rfl, rfl, rfl⟩), ?_, nofun⟩
      rintro g - ⟨⟩
      rfl
  · refine ⟨.inr (.inr ⟨hreboots, hr, rfl⟩), ?_, fun _ _ => rfl⟩
    rintro f rfl
    cases hreboots

end Sys2Proof.Machine
end

section
/-! Construction, reboot, the loader and the tick (70_reset_and_hazards.md), and who writes the registers
`CHANGED` and `IMAGE_LEN` (R32, R33). -/

namespace Sys2Proof.Machine

/-! ## Construction -/

theorem construct_of_not_fits {cfg : Config} (initMem : Nat → Byte) (h : ¬cfg.fits = true) :
    construct cfg initMem = .error .invalidConfiguration := if_neg h

/-- Memory whose every cell reads as an unlisted one lists nothing. -/
theorem Memory.ofFn_unlisted (n : Nat) : Memory.ofFn n (fun _ => Memory.unlisted) = [] := by
  simp [Memory.ofFn]

/-- Settles O33: the constraints are those of `fits_iff`; memory by `Memory.get_ofFn`, the buffers by their constant
cells. -/
theorem constructionGivesTheTableValues : Obligations.ConstructionGivesTheTableValues := by
  refine fun cfg initMem => ⟨fun h => ?_, fun h => construct_of_not_fits initMem (mt (fits_iff cfg).1 h)⟩
  refine ⟨_, if_pos ((fits_iff cfg).2 h), rfl, rfl, rfl, fun a => Memory.get_ofFn cfg.memSize initMem a, rfl, rfl, rfl,
    rfl, fun i hi => ⟨?_, ?_, ?_⟩⟩ <;>
  exact List.getElem?_replicate_of_lt hi

/-- Settles O34: the reference configuration is legal, and zeroed memory lists nothing. -/
theorem resetIsTheReferenceConstruction : Obligations.ResetIsTheReferenceConstruction := by
  have hmem : Memory.ofFn referenceConfig.memSize (fun _ => 0) = [] := Memory.ofFn_unlisted _
  rw [Obligations.ResetIsTheReferenceConstruction, construct, if_pos (fits_of_wf _ referenceConfig_wf), hmem,
    State.reset]

/-! ## Reboot and load -/

/-- The address of a host value is its remainder, which is never negative (R241, D10). -/
theorem addrOfInt_toNat (x : Int) : ((addrOfInt x).toNat : Int) = x % 65536 := by
  rw [addrOfInt, BitVec.toNat_ofInt]
  omega

/-- Settles O35: `PC` by `addrOfInt_toNat`; what a reboot writes does not depend on the state, so a second one writes
the same. -/
theorem rebootRestartsFromAnyState : Obligations.RebootRestartsFromAnyState := fun _ x =>
  ⟨_, rfl, addrOfInt_toNat x, rfl, rfl, rfl, rfl⟩

/-- The state that a `load` leaves: the image stored, its length recorded, the CPU rebooted at its base (R243). -/
def State.loaded (s : State) (bytes : List Byte) (base : Int) : State :=
  reboot base ((s.setMem (Memory.setBlock s.mem base.toNat bytes)).setImageLen bytes.length)

theorem load_of_fits {s : State} {bytes : List Byte} {base : Int} (h0 : 0 ≤ base)
    (h1 : base + bytes.length ≤ s.cfg.memSize) : load bytes base s = .ok (s.loaded bytes base) := by
  rw [load, writeBlock_of_fits s base bytes h0 h1, State.loaded]

theorem load_of_not_fits {s : State} {bytes : List Byte} {base : Int}
    (h : base < 0 ∨ base + bytes.length > s.cfg.memSize) :
    load bytes base s = .error (.blockOverflow base bytes.length) := by
  rw [load, writeBlock_of_not_fits s base bytes h]

/-- Of what a `load` writes, a read sees the stored image only. -/
theorem readByte_loaded (s : State) (bytes : List Byte) (base x : Int) :
    readByte (s.loaded bytes base) x = readByte (s.setMem (Memory.setBlock s.mem base.toNat bytes)) x := rfl

/-- A `load` starts the CPU at its base, modulo 65536 (R243). -/
theorem loaded_pc_toNat (s : State) (bytes : List Byte) (base : Int) :
    ((s.loaded bytes base).pc.toNat : Int) = base % 65536 := addrOfInt_toNat base

/-- Settles O36: `load_of_not_fits`; or `load_of_fits`, whose state reads as after the block store. -/
theorem loadCopiesThenReboots : Obligations.LoadCopiesThenReboots := by
  refine fun s bytes base hm => ⟨load_of_not_fits, fun h0 h1 => ?_⟩
  refine ⟨_, load_of_fits h0 h1, fun k hk => ?_, fun x hx => ?_, loaded_pc_toNat s bytes base, rfl⟩
  · rw [readByte_loaded, readByte_setBlock_inside s base bytes hm h0 h1 k hk]
  · rw [readByte_loaded, readByte_setBlock_outside s base x bytes h0 hx]

/-- Settles O37: a nonempty image that fits has its base below `MEM_SIZE`, and the remainder is no larger; the empty one
fits at `MEM_SIZE`, where the first fetch is outside Memory unless the address wraps. -/
theorem loadStartsInMemoryUnlessEmpty : Obligations.LoadStartsInMemoryUnlessEmpty := by
  refine ⟨fun s t bytes base hne h => ?_, fun s => ?_⟩
  · obtain ⟨h0, h1, rfl⟩ := load_cases h
    have hlen := List.length_pos_iff.2 hne
    have hpc := loaded_pc_toNat s bytes base
    show (s.loaded bytes base).pc.toNat < s.cfg.memSize
    omega
  · have hpc := loaded_pc_toNat s [] s.cfg.memSize
    refine ⟨_, load_of_fits (by omega) (by simp), by omega, fun hsize => ?_⟩
    have hstart : (s.loaded [] s.cfg.memSize).pc.toNat = s.cfg.memSize := by omega
    rw [stepResult_of_pc_outside rfl hstart.ge, hstart]

/-! ## The tick -/

/-- A sequence of operations runs its first operation and then the rest. -/
theorem runHost_cons {op : HostOp} {ops : List HostOp} {s t u : State} {r : HostResult} {results : List HostResult}
    (h : transact op s = .next (t, r)) (hrest : runHost ops t = .next (u, results)) :
    runHost (op :: ops) s = .next (u, r :: results) := by
  simp only [runHost, h, hrest]

/-- One more step per tick: the tick begins with it (R246). -/
theorem tick_succ {n : Nat} {s t u : State} {results : List HostResult} (hstep : step s = .next t)
    (htick : tick n t = .next (u, results)) : tick (n + 1) s = .next (u, .stepped (stepResult s) :: results) := by
  have h : transact .step s = .next (t, .stepped (stepResult s)) := by rw [transact, hstep, stepped]
  exact runHost_cons h htick

/-- A tick of no steps shows the back buffer, which neither `present` nor `render_frame` writes (R195). -/
theorem State.Inv.tick_zero {s : State} (h : s.Inv) :
    ∃ u results, tick 0 s = .next (u, results) ∧ u.grid = s.bb.map (paletteAt s.cfg) ∧ u.bb = s.bb := by
  obtain ⟨t, u, c, hpresent, hframe, hgrid⟩ := presentThenRenderShowsTheBackBuffer s h
  have ht : transact .present s = .next (t, .done) := by rw [transact, hpresent, completed]
  have hu : transact .renderFrame t = .next (u, .rendered c) := by rw [transact, hframe, framed]
  refine ⟨u, _, runHost_cons ht (runHost_cons hu rfl), hgrid, ?_⟩
  exact (transact_bb_of_not_draws rfl hu).trans (transact_bb_of_not_draws rfl ht)

/-- Settles O51: by induction on the steps per tick; a step keeps the invariant, the back buffer and the palette. -/
theorem tickShowsTheBackBuffer : Obligations.TickShowsTheBackBuffer := by
  intro n
  induction n with
  | zero => exact fun s hs => hs.tick_zero
  | succ n ih =>
    intro s hs
    obtain ⟨t, hstep⟩ := step_next s
    obtain ⟨hcfg, hbb, -⟩ := step_sameDevices hstep
    obtain ⟨u, results, htick, hgrid, hubb⟩ := ih t (step_keeps_inv hs hstep)
    exact ⟨u, _, tick_succ hstep htick, by rw [hgrid, hbb, hcfg], hubb.trans hbb⟩

/-! ## Who writes `IMAGE_LEN` and `CHANGED` -/

/-- An operation leaves `IMAGE_LEN` alone, a failed `load` included, or is a `load` that succeeds and writes the length
of its image (R33, R243). -/
theorem transact_imageLen_cases {op : HostOp} {s t : State} {r : HostResult} (h : transact op s = .next (t, r)) :
    (t.imageLen = s.imageLen ∧ ∀ bytes base, op = .load bytes base → r ≠ .done) ∨
    ∃ bytes base, op = .load bytes base ∧ r = .done ∧ t.imageLen = bytes.length := by
  obtain ⟨-, -, -, hload, rfl⟩ | ⟨rfl, hstep, -⟩ | ⟨x, rfl, rfl, -⟩ | ⟨hdraws, hdraw, -⟩ | ⟨a, v, rfl, -, rfl, -⟩ |
    ⟨start, bytes, hop, -, -, rfl, -⟩ | ⟨c, rfl, hframe, -⟩ | ⟨bytes, base, rfl, hload, hr⟩ := transact_cases h
  · refine .inl ⟨rfl, fun bytes base hop => ?_⟩
    obtain ⟨e, rfl⟩ := hload bytes base hop
    exact nofun
  · obtain ⟨-, -, -, -, -, hlen⟩ := step_sameDevices hstep
    exact .inl ⟨hlen, nofun⟩
  · exact .inl ⟨rfl, nofun⟩
  · rw [hdraw]
    refine .inl ⟨rfl, ?_⟩
    rintro bytes base rfl
    cases hdraws
  · exact .inl ⟨rfl, nofun⟩
  · obtain rfl | ⟨rfl, -⟩ := hop <;> exact .inl ⟨rfl, nofun⟩
  · rw [renderFrame_frame hframe]
    exact .inl ⟨rfl, nofun⟩
  · obtain ⟨-, -, rfl⟩ := load_cases hload
    exact .inr ⟨bytes, base, rfl, hr, rfl⟩

/-- No operation but `render_frame` writes `CHANGED` (R32). -/
theorem transact_changed {op : HostOp} {s t : State} {r : HostResult} (hop : op ≠ .renderFrame)
    (h : transact op s = .next (t, r)) : t.changed = s.changed := by
  obtain ⟨-, -, -, -, rfl⟩ | ⟨-, hstep, -⟩ | ⟨x, -, rfl, -⟩ | ⟨-, hdraw, -⟩ | ⟨a, v, -, -, rfl, -⟩ |
    ⟨start, bytes, -, -, -, rfl, -⟩ | ⟨c, hframe, -⟩ | ⟨bytes, base, -, hload, -⟩ := transact_cases h
  · rfl
  · obtain ⟨-, -, -, -, hchanged, -⟩ := step_sameDevices hstep
    exact hchanged
  · rfl
  · rw [hdraw, State.setBb_changed]
  · rfl
  · rfl
  · exact absurd hframe hop
  · obtain ⟨-, -, rfl⟩ := load_cases hload
    rfl

theorem answered_ne_rendered {α : Type} (s t : State) {result : α → HostResult} (x : Except Fault α) {c : Bool}
    (hresult : ∀ v, result v ≠ .rendered c) : answered s result x ≠ (t, .rendered c) := by
  cases x with
  | ok v => exact fun h => hresult v (Prod.mk.inj h).2
  | error f => nofun

theorem completed_ne_rendered (s t : State) (x : Except HostError State) (c : Bool) :
    completed s x ≠ (t, .rendered c) := by
  cases x <;> nofun

theorem stored_ne_rendered (s t : State) (x : Except Fault State) (c : Bool) : stored s x ≠ (t, .rendered c) := by
  cases x <;> nofun

/-- The result of a frame is handed back by `render_frame` only, when it succeeds (R192). -/
theorem renderFrame_of_transact_rendered {op : HostOp} {s t : State} {c : Bool}
    (h : transact op s = .next (t, .rendered c)) : renderFrame s = .ok (t, c) := by
  cases op with
  | renderFrame =>
    rw [transact] at h
    cases hr : renderFrame s with
    | error f =>
      rw [hr] at h
      cases h
    | ok p =>
      rw [hr] at h
      cases h
      rfl
  | step =>
    obtain ⟨u, hu⟩ := step_next s
    rw [transact, hu] at h
    cases h
  | readByte a => exact absurd (Host.Outcome.next.inj h) (answered_ne_rendered s t _ nofun)
  | readWord16 a => exact absurd (Host.Outcome.next.inj h) (answered_ne_rendered s t _ nofun)
  | writeByte a v => exact absurd (Host.Outcome.next.inj h) (stored_ne_rendered s t _ c)
  | writeBlock start bytes => exact absurd (Host.Outcome.next.inj h) (completed_ne_rendered s t _ c)
  | present => exact absurd (Host.Outcome.next.inj h) (completed_ne_rendered s t _ c)
  | load bytes base => exact absurd (Host.Outcome.next.inj h) (completed_ne_rendered s t _ c)
  | _ => cases h

/-- Settles O53: `transact_imageLen_cases` and `transact_changed`; a frame's result is the one that `render_frame`
returned, which `CHANGED` holds. -/
theorem imageLengthAndChangedHaveOneWriterEach : Obligations.ImageLengthAndChangedHaveOneWriterEach := by
  intro op s
  obtain ⟨t, r, h⟩ := transact_next op s
  have hrendered : ∀ c, r = .rendered c → t.changed = c := by
    rintro c rfl
    exact renderFrame_changed (renderFrame_of_transact_rendered h)
  refine ⟨t, r, h, ?_, ?_, fun hop => transact_changed hop h, hrendered⟩ <;>
    obtain ⟨hlen, hno⟩ | ⟨bytes, base, rfl, hr, hlen⟩ := transact_imageLen_cases h
  · exact .inl hlen
  · exact .inr ⟨bytes, base, rfl, hr, hlen⟩
  · exact fun bytes base hop hr => absurd hr (hno bytes base hop)
  · rintro _ _ ⟨⟩ -
    exact hlen

end Sys2Proof.Machine
end
